-- ==== Sys2Proof/Word.lean ====
section
/-! DEFINITION. The word types of the TWBE: command words, bytes, port registers (R63, R66, R8). -/

namespace Sys2Proof

/-- A 16-bit command word or host register (R27, R63). -/
abbrev Word := BitVec 16

/-- A byte: the operand of `SEND`, `SR`, `RXDATA`, an element of a host buffer (R16, R20, R66). -/
abbrev Byte := BitVec 8

/-- A port register: `PORT_W = 8` bits (R8, D6). DESIGN CHOICE: the default width is fixed (log 3). -/
abbrev Port := BitVec 8

end Sys2Proof
end

