-- ==== Sys2Proof/Config.lean ====
section
/-! DEFINITION. The implementation parameters of R8 and R9, and the free values the spec leaves open. -/

namespace Sys2Proof

/-- What the environment does to the two lines: `env_low(SDA_IDX)` and `env_low(SCL_IDX)` (R33). -/
structure EnvLow where
  sda : Bool
  scl : Bool
deriving DecidableEq, Repr, Inhabited

/-- The static parameters of an engine and of its host layer (R8, R9). No step writes a configuration; statements quantify
over all of them (log 2). -/
structure Config where
  /-- `DIR`, the reference to the direction register: its place in the platform's register map (R8, R44; log 24). -/
  dirRef : Nat
  /-- `OUT`, the reference to the output latch (R8, R44; log 24). -/
  outRef : Nat
  /-- `IN`, the reference to the input-sense register (R8, R44; log 24). -/
  inRef : Nat
  /-- `SDA_IDX`, bit position of the data line (R8). -/
  sdaIdx : Nat
  /-- `SCL_IDX`, bit position of the clock line (R8). -/
  sclIdx : Nat
  /-- `SETTLE`, the settle delay, a positive duration in any unit (R8, D22). -/
  settle : Nat
  /-- `HAS_DIAG`, whether the diagnostic hook is bound; without effect (R8, R147, D19). -/
  hasDiag : Bool
  /-- `HOST_BASE`, the host's word address of `CMD` (R8, R27). -/
  hostBase : Nat
  /-- `PORT_RESET_DIR` (R153). -/
  portResetDir : Port
  /-- `PORT_RESET_OUT` (R153). -/
  portResetOut : Port
  /-- `WS`, the device write-select byte of the host layer (R9). -/
  ws : Byte
  /-- `PAGE_SIZE` of the host layer (R9). -/
  pageSize : Nat
  /-- `POLL_WAIT` of the host layer (R9). -/
  pollWait : Nat
deriving DecidableEq, Repr

/-- `RS = WS | 0x01` (R9, R77). -/
def Config.rs (c : Config) : Byte := c.ws ||| 0x01#8

/-- The configuration that `State.reset` is built with. DESIGN CHOICE: the spec leaves every parameter open; pin indices
and `WS` are those of 95_test_vectors.md, the port reset values the AVR family's (PRESUMED) (log 2, log 4). -/
def Config.standard : Config where
  dirRef := 0
  outRef := 1
  inRef := 2
  sdaIdx := 4
  sclIdx := 5
  settle := 1
  hasDiag := false
  hostBase := 0
  portResetDir := 0x00#8
  portResetOut := 0x00#8
  ws := 0xA0#8
  pageSize := 32
  pollWait := 1

/-- FREE VALUE: what the environment does at its `n`-th move where no move of it is written down (R33, R36, R158; log 5). -/
opaque Config.freePull : Nat → EnvLow

/-- FREE VALUE: the level of pin `p` under contention, after the environment's `n`-th move: "unspecified" (R34, U15; log 6). -/
opaque Config.contention : (n p : Nat) → Bool

/-- FREE VALUE: whether anything pulls low a pin of the port that is neither line, after the environment's `n`-th move:
the spec says nothing of the co-user's pins (R24; log 6). -/
opaque Config.otherPin : (n p : Nat) → Bool

end Sys2Proof
end

