-- ==== Sys2Proof/Syntax.lean ====
section
/-! DEFINITION. The five commands of R67, one constructor per row of spec/opcode_table.json. -/

namespace Sys2Proof

/-- A command of the engine (R4, R67). The bus handle is not an operand: an engine is one handle (R64). -/
inductive Instr where
  /-- `INIT`, format `W0` (R98). -/
  | init
  /-- `START`, format `W0` (R99). -/
  | start
  /-- `STOP`, format `W0` (R100). -/
  | stop
  /-- `SEND value`, format `W8`: all 256 values are legal (R66, R106). -/
  | send (value : Byte)
  /-- `RECV ack`, format `W1`: `true` is the document's `send_ack` true (R66, R111). -/
  | recv (ack : Bool)
deriving DecidableEq, Repr

end Sys2Proof
end

