-- ==== Sys2Proof/WellFormed.lean ====
section
/-! DEFINITION. What is well formed: a command's operand byte in its format (R65), a configuration (R8, R53), the host
layer's parameters (R9). -/

namespace Sys2Proof

/-- The three formats of R65. -/
inductive Format where
  /-- No operand. -/
  | W0
  /-- Byte operand. -/
  | W8
  /-- Flag operand. -/
  | W1
deriving DecidableEq, Repr

/-- The operand bytes a format admits: in `W0` all eight bits must be 0, in `W1` bits 7:1 must be 0 (R65). -/
def Format.admits : Format → Byte → Bool
  | .W0, arg => arg == 0#8
  | .W8, _ => true
  | .W1, arg => arg.extractLsb' 1 7 == 0#7

/-- The format column of R67. -/
def Instr.format : Instr → Format
  | .init => .W0
  | .start => .W0
  | .stop => .W0
  | .send _ => .W8
  | .recv _ => .W1

/-- The operand byte `arg` of a command (R64, R66). -/
def Instr.arg : Instr → Byte
  | .init => 0#8
  | .start => 0#8
  | .stop => 0#8
  | .send v => v
  | .recv a => if a then 1#8 else 0#8

/-- A command is well formed when its format admits its operand byte. The types of `Instr` build no other. -/
def Instr.wellFormed (i : Instr) : Bool := i.format.admits i.arg

/-- The three register references are "distinct registers of one port" (92_eei_decisions.md, Open parameters). -/
def Config.refsDistinct (c : Config) : Bool :=
  decide (c.dirRef ≠ c.outRef) && decide (c.dirRef ≠ c.inRef) && decide (c.outRef ≠ c.inRef)

/-- The bounds on the engine's parameters (R8, R53): both pins in the port and different, `SETTLE` positive, the register
references distinct (log 19). -/
def Config.wf (c : Config) : Bool :=
  decide (c.sdaIdx < 8) && decide (c.sclIdx < 8) && decide (c.sdaIdx ≠ c.sclIdx) && decide (0 < c.settle) &&
    c.refsDistinct

/-- The bounds on the host layer's parameters (R9): `WS[0] = 0`, `PAGE_SIZE` and `POLL_WAIT` positive (log 19). -/
def Config.hostWf (c : Config) : Bool :=
  !c.ws.getLsbD 0 && decide (0 < c.pageSize) && decide (0 < c.pollWait)

end Sys2Proof
end

