-- ==== Sys2Proof/Decode.lean ====
section
/-! DEFINITION. The decoder of R71, total on the 65536 command words, the opcode map of R67 and the encoder. -/

namespace Sys2Proof

/-- Why a word is illegal (R68). -/
inductive Illegal where
  /-- `op = 0x00`. -/
  | zeroOpcode
  /-- `op` in `0x06` to `0xFF`. -/
  | unusedOpcode (op : Byte)
  /-- A known opcode whose reserved operand bits are not all 0. -/
  | operandBits (op arg : Byte)
deriving DecidableEq, Repr

/-- What a command word decodes to (R71). -/
inductive Decoded where
  | legal (i : Instr)
  | illegal (why : Illegal)
deriving DecidableEq, Repr

/-- `op = w[15:8]` (R64). -/
def opField (w : Word) : Byte := w.extractLsb' 8 8

/-- `arg = w[7:0]` (R64). -/
def argField (w : Word) : Byte := w.extractLsb' 0 8

/-- `decode(w)` (R71). -/
def decode (w : Word) : Decoded :=
  if opField w = 0x01#8 then
    if argField w = 0x00#8 then .legal .init else .illegal (.operandBits 0x01#8 (argField w))
  else if opField w = 0x02#8 then
    if argField w = 0x00#8 then .legal .start else .illegal (.operandBits 0x02#8 (argField w))
  else if opField w = 0x03#8 then
    if argField w = 0x00#8 then .legal .stop else .illegal (.operandBits 0x03#8 (argField w))
  else if opField w = 0x04#8 then .legal (.send (argField w))
  else if opField w = 0x05#8 then
    if (argField w).extractLsb' 1 7 = 0#7 then .legal (.recv ((argField w).getLsbD 0))
    else .illegal (.operandBits 0x05#8 (argField w))
  else if opField w = 0x00#8 then .illegal .zeroOpcode
  else .illegal (.unusedOpcode (opField w))

/-- `encode` (R71). -/
def encode : Instr → Word
  | .init => 0x0100#16
  | .start => 0x0200#16
  | .stop => 0x0300#16
  | .send v => 0x0400#16 ||| v.zeroExtend 16
  | .recv a => 0x0500#16 ||| (if a then 1#16 else 0#16)

/-- `match` of a command's row in R67. -/
def rowMatch : Instr → Word
  | .init => 0x0100#16
  | .start => 0x0200#16
  | .stop => 0x0300#16
  | .send _ => 0x0400#16
  | .recv _ => 0x0500#16

/-- `mask` of a command's row in R67. -/
def rowMask : Instr → Word
  | .init => 0xFFFF#16
  | .start => 0xFFFF#16
  | .stop => 0xFFFF#16
  | .send _ => 0xFF00#16
  | .recv _ => 0xFFFE#16

/-- "A word `w` selects the row whose `(w & mask) = match`" (R67). -/
def rowSelects (i : Instr) (w : Word) : Bool := (w &&& rowMask i) == rowMatch i

/-- The command word whose bits, numbered as the opcode table numbers them, are `w`: the lowest `nbits` bits of `w`, every
bit above them 0. A command is one 16-bit word written at once (R63): it has no byte order (log 10). -/
def tableWord (nbits w : Nat) : Word := BitVec.ofNat 16 (w % 2 ^ nbits)

/-- The command the decoder reads from an opcode-table word. -/
def decodeTableWord (nbits w : Nat) : Option Instr :=
  match decode (tableWord nbits w) with
  | .legal i => some i
  | .illegal _ => none

end Sys2Proof
end

