-- ==== Sys2Proof/Machine/State.lean ====
section
/-! DEFINITION. The state of the machine as plain data: the engine's registers, the port, the environment, the ghost
state and the host's side (10_state.md), the reasons a step can stop, and the state after reset. -/

namespace Sys2Proof.Machine

/-- Memory that the caller's buffers lie in (R125, R130): cells in strictly rising address order, none holding the value
an unlisted address reads as. The engine itself has no memory (R31). -/
abbrev Memory := List Host.Cell

/-- The ghost frame state: `Closed` or `Open` (R37). -/
inductive Frame where
  | closed
  | opened
deriving DecidableEq, Repr

/-- The port registers that can be read (R46). -/
inductive PortReg where
  | dir
  | out
  | input
deriving DecidableEq, Repr

/-- The port registers that can be written (R47). -/
inductive Latch where
  | dir
  | out
deriving DecidableEq, Repr

/-- The host-interface errors of R135 that are raised by a `CMD` write. -/
inductive HostError where
  | illegalCmd
  | cmdOverrun
deriving DecidableEq, Repr

/-- The host registers of R27. -/
inductive HostReg where
  | cmd
  | status
  | rxdata
deriving DecidableEq, Repr

/-- The environment (R33): what it pulls low now, the moves it is known to make next, and how many moves it has made (the
model's own counter, which the free values of `Config` are applied to). -/
structure Env where
  low : EnvLow
  answers : List EnvLow
  moves : Nat
deriving DecidableEq, Repr

/-- A caller's buffer: `size` bytes of `Memory` from address `base`. -/
structure Buffer where
  base : Nat
  size : Nat
deriving DecidableEq, Repr

/-- The arguments of `EE_WRITE` and `EE_READ` (R125, R129). -/
structure EeArgs where
  addr : Word
  buf : Buffer
  offset : Nat
  length : Nat
deriving DecidableEq, Repr

/-- Where a pseudo-instruction in progress stands: the line of the expansion of R125 or R129 the host performs next. -/
inductive EeTask where
  /-- `EE_WRITE`: the first `START`. -/
  | writeStart (a : EeArgs)
  /-- `EE_WRITE`: `SEND WS`. -/
  | writeSelect (a : EeArgs)
  /-- `EE_WRITE`: `SEND addr[15:8]`. -/
  | writeAddrHi (a : EeArgs)
  /-- `EE_WRITE`: `SEND addr[7:0]`. -/
  | writeAddrLo (a : EeArgs)
  /-- `EE_WRITE`: `SEND buf[offset + k]`. -/
  | writeData (a : EeArgs) (k : Nat)
  /-- `EE_WRITE`: the `STOP` after the data phase. -/
  | writeStop
  /-- `EE_WRITE`: `WAIT(POLL_WAIT)`. -/
  | pollWait
  /-- `EE_WRITE`: the busy-poll's `START`. -/
  | pollStart
  /-- `EE_WRITE`: the busy-poll's `SEND WS`. -/
  | pollSelect
  /-- `EE_WRITE`: the final `STOP`. -/
  | writeFinalStop
  /-- `EE_READ`: the first `START`. -/
  | readStart (a : EeArgs)
  /-- `EE_READ`: `SEND WS`. -/
  | readSelect (a : EeArgs)
  /-- `EE_READ`: `SEND addr[15:8]`. -/
  | readAddrHi (a : EeArgs)
  /-- `EE_READ`: `SEND addr[7:0]`. -/
  | readAddrLo (a : EeArgs)
  /-- `EE_READ`: the `STOP` that closes the address phase. -/
  | readAddrStop (a : EeArgs)
  /-- `EE_READ`: the second `START`. -/
  | readRestart (a : EeArgs)
  /-- `EE_READ`: `SEND RS`. -/
  | readReselect (a : EeArgs)
  /-- `EE_READ`: `buf[offset + k] <- RECV`. -/
  | readData (a : EeArgs) (k : Nat)
  /-- `EE_READ`: the final `STOP`. -/
  | readFinalStop
deriving DecidableEq, Repr

/-- One move of one agent (R13). `State.agenda` says which comes next. -/
inductive Move where
  /-- The host calls a primitive: it writes the word to `CMD` and waits for `BUSY = 0` (R119). -/
  | call (w : Word)
  /-- The host writes the host register at word address `addr` (R27). -/
  | hostWrite (addr : Nat) (w : Word)
  /-- The host reads the host register at word address `addr` (R27). -/
  | hostRead (addr : Nat)
  /-- The engine takes its step, if it has one (R91). -/
  | engine
  /-- The host takes the next line of the pseudo-instruction in progress, if any (R125, R129). -/
  | host
  /-- The environment changes what it pulls low (R33). -/
  | env (low : EnvLow)
  /-- The co-user reads the port register at the reference `ref` (R38, R44). -/
  | couserRead (ref : Nat)
  /-- The co-user writes the bits set in `bits` of the port register at the reference `ref` (R26, R38, R44). -/
  | couserWrite (ref : Nat) (bits v : Port)
  /-- The reset input is asserted (`true`) or released (R151). -/
  | rst (asserted : Bool)
  /-- The host begins `EE_WRITE`; `commit` is accepted and ignored (R125, R132). -/
  | eeWrite (a : EeArgs) (commit : Bool)
  /-- The host begins `EE_READ` (R129). -/
  | eeRead (a : EeArgs)
deriving DecidableEq, Repr

/-- Why the machine stops with a fault. -/
inductive Fault where
  /-- Raised by `hostRead` and `hostWrite` for a word address that is not `HOST_BASE + 0, 1, 2`: "offsets 3 and above are
  not part of the engine" (R27). Safe: the model stops where another device might answer. -/
  | noHostRegister (addr : Nat)
  /-- Raised by `couserReadAt` and `couserWriteAt` for a reference that names none of the three registers: the port register
  space holds `DIR`, `OUT` and `IN` (R43). Safe: the model stops where another register might answer (log 24). -/
  | noPortRegister (ref : Nat)
  /-- Raised by `couserWriteAt` for a write to `IN`, which is read-only (R24) and to which `MemWrite` is not defined (R47).
  Safe: the spec gives the write no effect (log 24). -/
  | inputReadOnly
  /-- Raised by `engineStep` when `BUSY = 1` and `CMDR`, `UPC` name no micro-operation. The spec gives no step there, and
  no run from reset reaches it (R18, R91). Safe. -/
  | sequencerLost
deriving DecidableEq, Repr

/-- Why the machine refuses. -/
inductive Refusal where
  /-- Raised by `exec`'s arms for a command that has no meaning yet. Safe. -/
  | notModelled (mnemonic : String)
  /-- Raised by `step` and by every command when the configuration breaks a bound: "a configuration that breaks a bound is
  refused by the model: the spec gives it no meaning" (R53, U20). Safe. -/
  | badConfig
  /-- Raised when a pseudo-instruction begins and the host layer's parameters break R9 (R161). Safe. -/
  | badHostConfig
  /-- Raised when a pseudo-instruction begins whose `offset + length` is beyond its buffer: "the model of the host
  **refuses** other calls" (U21). Safe. -/
  | bufferBounds
  /-- Raised when a pseudo-instruction begins while another is in progress (R121, U7: "Refuse"). Safe. -/
  | interleavedTransaction
deriving DecidableEq, Repr

/-- The machine. -/
structure State where
  /-- The static parameters (R8, R9); no step writes them (DESIGN CHOICE, log 2). -/
  cfg : Config
  /-- `CMDR` (R15). -/
  cmdr : Word
  /-- `SR` (R16). -/
  sr : Byte
  /-- `UPC` (R18). -/
  upc : BitVec 5
  /-- `BUSY` (R17). -/
  busy : Bool
  /-- `ACK` (R19). -/
  ack : Bool
  /-- `RXDATA` (R20). -/
  rxdata : Byte
  /-- `ERR_ILL` (R21). -/
  errIll : Bool
  /-- `ERR_OVR` (R21). -/
  errOvr : Bool
  /-- `ackbit`, held by the sequencer from `SMA` to completion (R86). Its reset value 0 is a DESIGN CHOICE (log 8). -/
  ackbit : Bool
  /-- The reset input, as a level (R151; DEDUCED, log 9). -/
  rst : Bool
  /-- `DIR`, the contents of the register that `cfg.dirRef` names (R22, R44). -/
  dir : Port
  /-- `OUT`, the contents of the register that `cfg.outRef` names (R23, R44). -/
  out : Port
  /-- The environment (R33; DESIGN CHOICE of its form, log 5, log 7). -/
  env : Env
  /-- Ghost `inited` (R37). -/
  inited : Bool
  /-- Ghost `frame` (R37). -/
  frame : Frame
  /-- Ghost `viol` (R37). -/
  viol : Bool
  /-- Ghost of the model: settle delays elapsed (R90, R176; DESIGN CHOICE, log 16). -/
  settles : Nat
  /-- Ghost of the model: `WAIT(POLL_WAIT)` pauses made by the host (R128; DESIGN CHOICE, log 16). -/
  waits : Nat
  /-- The value the host's last `HostRead` returned as a move of its own (R11); the reads inside a whole call leave it as it was
  (DESIGN CHOICE, log 17). -/
  hostData : Word
  /-- The memory the caller's buffers lie in (R125; DESIGN CHOICE, log 12). -/
  mem : Memory
  /-- The pseudo-instruction in progress (R125, R129). -/
  task : Option EeTask
  /-- The moves the agents make next (R13, R40; DESIGN CHOICE, log 10, log 11). -/
  agenda : List Move
deriving DecidableEq, Repr

/-- The machine right after reset on a platform with configuration `c` (R41, R151, R156). -/
def State.resetOf (c : Config) : State where
  cfg := c
  cmdr := 0x0000#16
  sr := 0x00#8
  upc := 0#5
  busy := false
  ack := false
  rxdata := 0x00#8
  errIll := false
  errOvr := false
  ackbit := false
  rst := false
  dir := c.portResetDir
  out := c.portResetOut
  env := { low := Config.freePull 0, answers := [], moves := 1 }
  inited := false
  frame := .closed
  viol := false
  settles := 0
  waits := 0
  hostData := 0x0000#16
  mem := []
  task := none
  agenda := []

/-- The machine right after reset. -/
def State.reset : State := State.resetOf Config.standard

end Sys2Proof.Machine
end

