-- ==== Sys2Proof/Machine/Memory.lean ====
section
/-! DEFINITION. The operations over the byte memory the caller's buffers lie in, and its canonical form. -/

namespace Sys2Proof.Machine

/-- What an unlisted address reads as. DESIGN CHOICE: `0x00`; the spec gives buffers no first contents (log 12). -/
def Memory.blank : Byte := 0x00#8

/-- The byte at address `x`. -/
def Memory.read : Memory → Nat → Byte
  | [], _ => Memory.blank
  | (a, b) :: m, x => if x = a then b else Memory.read m x

/-- Write the byte `v` at address `x`, keeping the canonical form. -/
def Memory.write : Memory → Nat → Byte → Memory
  | [], x, v => if v = Memory.blank then [] else [(x, v)]
  | (a, b) :: m, x, v =>
    if x < a then (if v = Memory.blank then (a, b) :: m else (x, v) :: (a, b) :: m)
    else if x = a then (if v = Memory.blank then m else (x, v) :: m)
    else (a, b) :: Memory.write m x v

/-- Every listed address is at least `lo`, the addresses rise strictly, and no cell holds the blank value. -/
def Memory.wfFrom : Nat → Memory → Bool
  | _, [] => true
  | lo, (a, b) :: m => decide (lo ≤ a) && decide (b ≠ Memory.blank) && Memory.wfFrom (a + 1) m

/-- The canonical form of a memory. -/
def Memory.wf (m : Memory) : Bool := Memory.wfFrom 0 m

end Sys2Proof.Machine
end

