-- ==== Sys2Proof/Machine/Ops.lean ====
section
/-! DEFINITION. The pseudocode primitives of R11 as named operations over the state: line levels, port access, the settle
delay, the environment's moves, raising a host-interface error (the engine's only "exception", R140), and reset. There is
no return from an exception (R141). -/

namespace Sys2Proof.Machine

/-- `bit(p)`: the port value with only bit `p` set (R10). -/
def bit (p : Nat) : Port := 1#8 <<< p

/-- `bit(SDA_IDX)`. -/
def sdaBit (s : State) : Port := bit s.cfg.sdaIdx

/-- `bit(SCL_IDX)`. -/
def sclBit (s : State) : Port := bit s.cfg.sclIdx

/-- `DIR[SDA_IDX]`: the engine holds the data pin in output mode. -/
def sdaDriven (s : State) : Bool := s.dir.getLsbD s.cfg.sdaIdx

/-- `DIR[SCL_IDX]`: the engine holds the clock pin in output mode. -/
def sclDriven (s : State) : Bool := s.dir.getLsbD s.cfg.sclIdx

/-! ### Line levels -/

/-- `env_low(p)` (R33). For a pin that is neither line it is a free value (log 6). -/
def envLow (s : State) (p : Nat) : Bool :=
  if p = s.cfg.sdaIdx then s.env.low.sda
  else if p = s.cfg.sclIdx then s.env.low.scl
  else Config.otherPin s.env.moves p

/-- `level(p)`: the electrical level of the line at pin `p`, `true` = high (R34). The contended level is a free value. -/
def level (s : State) (p : Nat) : Bool :=
  if s.dir.getLsbD p then
    if s.out.getLsbD p then
      if envLow s p then Config.contention s.env.moves p else true
    else false
  else !envLow s p

/-- `IN`: bit `p` is `level(p)` (R24, R35). -/
def inputValue (s : State) : Port :=
  (List.range 8).foldl (fun v p => if level s p then v ||| bit p else v) 0#8

/-! ### Port access -/

/-- The reference of each port register in the handle (R8, R44). -/
def portRef (c : Config) : PortReg → Nat
  | .dir => c.dirRef
  | .out => c.outRef
  | .input => c.inRef

/-- The port register a reference names: `portRef` backwards. The port register space holds these three and no other
(R43). -/
def portReg (c : Config) (ref : Nat) : Option PortReg :=
  if ref = c.dirRef then some .dir
  else if ref = c.outRef then some .out
  else if ref = c.inRef then some .input
  else none

/-- `MemRead(reg, PORT_W)` (R46). -/
def memRead (r : PortReg) (s : State) : Port :=
  match r with
  | .dir => s.dir
  | .out => s.out
  | .input => inputValue s

/-- `MemRead(reg, PORT_W)[p]`: one bit of a register read; for `IN` it is `level(p)` at the instant of the read (R46). -/
def memReadBit (r : PortReg) (p : Nat) (s : State) : Bool :=
  match r with
  | .dir => s.dir.getLsbD p
  | .out => s.out.getLsbD p
  | .input => level s p

/-- `MemWrite(reg, PORT_W, v)` (R47). -/
def memWrite (r : Latch) (v : Port) (s : State) : State :=
  match r with
  | .dir => { s with dir := v }
  | .out => { s with out := v }

/-- The register a `Latch` names, as one that can be read. -/
def Latch.port : Latch → PortReg
  | .dir => .dir
  | .out => .out

/-- `PortClr(reg, m)`: one atomic read-modify-write (R48). -/
def portClr (r : Latch) (m : Port) (s : State) : State := memWrite r (memRead r.port s &&& ~~~m) s

/-- `PortSet(reg, m)`: one atomic read-modify-write (R48). -/
def portSet (r : Latch) (m : Port) (s : State) : State := memWrite r (memRead r.port s ||| m) s

/-- `Settle()`: it changes no register, port or line; the ghost `settles` counts it (R90; log 16). -/
def settle (s : State) : State := { s with settles := s.settles + 1 }

/-! ### The environment -/

/-- The environment moves to `low` (R33). -/
def Env.move (e : Env) (low : EnvLow) : Env := { e with low := low, moves := e.moves + 1 }

/-- The environment's move between two micro-operations: the next written one, else a free draw (R33, R36, R91; log 5). -/
def Env.advance (e : Env) : Env :=
  match e.answers with
  | [] => { low := Config.freePull e.moves, answers := [], moves := e.moves + 1 }
  | a :: rest => { low := a, answers := rest, moves := e.moves + 1 }

/-- The environment after `n` moves of its own. -/
def Env.after : Nat → Env → Env
  | 0, e => e
  | n + 1, e => Env.after n e.advance

/-- The environment moves. -/
def envMove (s : State) : State := { s with env := s.env.advance }

/-! ### Errors and reset -/

/-- `raise <Error>`: the whole effect of a host-interface error is the setting of its sticky flag (R137, R138, R140). -/
def raise (e : HostError) (s : State) : State :=
  match e with
  | .illegalCmd => { s with errIll := true }
  | .cmdOverrun => { s with errOvr := true }

/-- What the reset input does to the engine's registers and the ghost state (R151, R156). It makes no port access (R152)
and does not reset the environment (R158) or the host (log 9). -/
def resetEngine (s : State) : State :=
  { s with
    cmdr := 0x0000#16, sr := 0x00#8, upc := 0#5, busy := false, ack := false, rxdata := 0x00#8,
    errIll := false, errOvr := false, ackbit := false, inited := false, frame := .closed, viol := false }

/-- The reset input is asserted, in one atomic step, or released (R151; log 9). -/
def setRst (asserted : Bool) (s : State) : State :=
  if asserted then { resetEngine s with rst := true } else { s with rst := false }

end Sys2Proof.Machine
end

