-- ==== Sys2Proof/Machine/Flags.lean ====
section
/-! DEFINITION. The flag computations: the `STATUS` word, the acknowledge bit of a sample, what completion commits, and
the ghost flags a launch writes (R29, R38, R86, R92). -/

namespace Sys2Proof.Machine

/-- One bit of a host register. -/
def flagBit (b : Bool) (n : Nat) : Word := if b then 1#16 <<< n else 0#16

/-- `STATUS = zext_16({ERR_OVR, ERR_ILL, ACK, BUSY})` (R29). -/
def statusWord (s : State) : Word :=
  flagBit s.busy 0 ||| flagBit s.ack 1 ||| flagBit s.errIll 2 ||| flagBit s.errOvr 3

/-- `RXDATA` as the host reads it: `zext_16(x[RXDATA])` (R30). -/
def rxdataWord (s : State) : Word := s.rxdata.zeroExtend 16

/-- `ackbit <- (s = 0)`: a low sample means acknowledged (R86). -/
def ackOfSample (high : Bool) : Bool := !high

/-- `ACK` after completion: committed by `SEND` alone (R92). -/
def commitAck (i : Instr) (s : State) : Bool :=
  match i with
  | .init => s.ack
  | .start => s.ack
  | .stop => s.ack
  | .send _ => s.ackbit
  | .recv _ => s.ack

/-- `RXDATA` after completion: committed by `RECV` alone (R92). -/
def commitRx (i : Instr) (s : State) : Byte :=
  match i with
  | .init => s.rxdata
  | .start => s.rxdata
  | .stop => s.rxdata
  | .send _ => s.rxdata
  | .recv _ => s.sr

/-- `inited` after the launch of a command (R38; DEDUCED, log 21). -/
def ghostInited (i : Instr) (s : State) : Bool :=
  match i with
  | .init => true
  | .start => s.inited
  | .stop => s.inited
  | .send _ => s.inited
  | .recv _ => s.inited

/-- `frame` after the launch of a command (R38). -/
def ghostFrame (i : Instr) (s : State) : Frame :=
  match i with
  | .init => .closed
  | .start => .opened
  | .stop => .closed
  | .send _ => s.frame
  | .recv _ => s.frame

/-- Whether launching a command in this state breaks the caller's contract (R38). -/
def breaksContract (i : Instr) (s : State) : Bool :=
  match i with
  | .init => s.frame == .opened
  | .start => !s.inited || sclDriven s || sdaDriven s
  | .stop => !s.inited
  | .send _ => !s.inited || s.frame == .closed
  | .recv _ => !s.inited || s.frame == .closed

end Sys2Proof.Machine
end

