-- ==== Sys2Proof/Machine/Operands.lean ====
section
/-! DEFINITION. The operand forms: the byte and flag operands of a command word, what launch loads into `SR`, the bits
that `DS`, `DA` and `SMD` take and insert (R66, R84, R85, R87, R117), and the host's address split (R123). -/

namespace Sys2Proof.Machine

/-- `SR[7]`: the bit `DS` presents (R84). -/
def srTop (s : State) : Bool := s.sr.getLsbD 7

/-- `trunc_8(v << 1)` (R117). -/
def shiftLeft1 (v : Byte) : Byte := v <<< 1

/-- `trunc_8(v << 1) | zext_8(b)`: a sampled bit goes in at bit 0 (R87). -/
def shiftIn (v : Byte) (b : Bool) : Byte := shiftLeft1 v ||| (if b then 1#8 else 0#8)

/-- `CMDR[0]`: the `ack` operand of `RECV` (R66, R85). -/
def ackOperand (s : State) : Bool := s.cmdr.getLsbD 0

/-- What launch leaves in `SR`: the byte to send for `SEND`, `0x00` for `RECV`, else the old value (R16, R96). -/
def loadSr (i : Instr) (sr : Byte) : Byte :=
  match i with
  | .init => sr
  | .start => sr
  | .stop => sr
  | .send v => v
  | .recv _ => 0x00#8

/-- `MemRead(IN, PORT_W)[SDA_IDX]`: one sample of the data line, `true` = high (R86, R87). -/
def sampleSda (s : State) : Bool := memReadBit .input s.cfg.sdaIdx s

/-- `a[15:8]` of an `EepromAddress`, sent first (R123). -/
def addrHi (a : Word) : Byte := a.extractLsb' 8 8

/-- `a[7:0]` of an `EepromAddress`, sent second (R123). -/
def addrLo (a : Word) : Byte := a.extractLsb' 0 8

end Sys2Proof.Machine
end

