-- ==== Sys2Proof/Machine/MicroOps.lean ====
section
/-! DEFINITION. The ten micro-operations of the sequencer (40_line_driver.md, R79 to R90). They have no encoding (R72). -/

namespace Sys2Proof.Machine

/-- The ten micro-operations (R79). -/
inductive MicroOp where
  /-- Clock low (R80). -/
  | CL
  /-- Clock released (R81). -/
  | CR
  /-- Data low (R82). -/
  | DL
  /-- Data released (R83). -/
  | DR
  /-- Data from the shift register (R84). -/
  | DS
  /-- Data for acknowledge (R85). -/
  | DA
  /-- Sample for acknowledge (R86). -/
  | SMA
  /-- Sample for data (R87). -/
  | SMD
  /-- Release both lines (R89). -/
  | IR
  /-- Clear both output-latch bits (R89). -/
  | OC
deriving DecidableEq, Repr

/-- `CL` (R80). -/
def opCL (s : State) : State := settle (portSet .dir (sclBit s) s)

/-- `CR` (R81). -/
def opCR (s : State) : State := settle (portClr .dir (sclBit s) s)

/-- `DL` (R82). -/
def opDL (s : State) : State := settle (portSet .dir (sdaBit s) s)

/-- `DR` (R83). -/
def opDR (s : State) : State := settle (portClr .dir (sdaBit s) s)

/-- `DS` (R84): a 1 releases the data line, a 0 drives it low; then `SR` shifts left. -/
def opDS (s : State) : State :=
  let t := settle (if srTop s then portClr .dir (sdaBit s) s else portSet .dir (sdaBit s) s)
  { t with sr := shiftLeft1 s.sr }

/-- `DA` (R85): with `ack = 0` no port access and no delay. -/
def opDA (s : State) : State := if ackOperand s then settle (portSet .dir (sdaBit s) s) else s

/-- `SMA` (R86). -/
def opSMA (s : State) : State := { s with ackbit := ackOfSample (sampleSda s) }

/-- `SMD` (R87). -/
def opSMD (s : State) : State := { s with sr := shiftIn s.sr (sampleSda s) }

/-- `IR` (R89): both lines in one atomic write. -/
def opIR (s : State) : State := settle (portClr .dir (sdaBit s ||| sclBit s) s)

/-- `OC` (R89): both latch bits in one atomic write, no delay. -/
def opOC (s : State) : State := portClr .out (sdaBit s ||| sclBit s) s

/-- Execute one micro-operation by its rule (R91). -/
def execMicro : MicroOp → State → State
  | .CL, s => opCL s
  | .CR, s => opCR s
  | .DL, s => opDL s
  | .DR, s => opDR s
  | .DS, s => opDS s
  | .DA, s => opDA s
  | .SMA, s => opSMA s
  | .SMD, s => opSMD s
  | .IR, s => opIR s
  | .OC, s => opOC s

/-- The environment's move and then one micro-operation: "between two steps the environment may change `env_low`" (R91). -/
def tick (m : MicroOp) (s : State) : State := execMicro m (envMove s)

/-- A list of micro-operations, "strictly in list order" (R91). -/
def runOps : List MicroOp → State → State
  | [], s => s
  | m :: ms, s => runOps ms (tick m s)

end Sys2Proof.Machine
end

