-- ==== Sys2Proof/Machine/Sequencer.lean ====
section
/-! DEFINITION. The micro-program table (R97), launch (R96), the engine's step (R91), completion (R92), and the shared
operation of every command: launch and run to completion. -/

namespace Sys2Proof.Machine

/-! ### Micro-programs (R97) -/

/-- A list repeated `n` times: the `X × n` of R97. -/
def times : Nat → List MicroOp → List MicroOp
  | 0, _ => []
  | n + 1, xs => xs ++ times n xs

/-- The micro-program of `INIT` (R97, R98). -/
def microInit : List MicroOp := [.IR, .OC]

/-- The micro-program of `START` (R97, R99). -/
def microStart : List MicroOp := [.DL]

/-- The micro-program of `STOP` (R97, R100). -/
def microStop : List MicroOp := [.CL, .DL, .CR, .DR]

/-- The micro-program of `SEND` (R97, R106): eight data cells (R107) and the acknowledge cell (R108). -/
def microSend : List MicroOp := times 8 [.CL, .DS, .CR] ++ [.CL, .DR, .CR, .SMA]

/-- The micro-program of `RECV` (R97, R111): the first cell, seven more (R112), the acknowledge cell (R113). -/
def microRecv : List MicroOp := [.CL, .DR, .CR, .SMD] ++ times 7 [.CL, .CR, .SMD] ++ [.CL, .DA, .CR]

/-- `microprogram(cmd)` (R97). -/
def microprogram : Instr → List MicroOp
  | .init => microInit
  | .start => microStart
  | .stop => microStop
  | .send _ => microSend
  | .recv _ => microRecv

/-! ### Launch, step, completion -/

/-- The last branch of R96: latch the word, load `SR`, set `UPC` and `BUSY`, update the ghost state by R38. It touches no
port register and no line. -/
def launch (i : Instr) (w : Word) (s : State) : State :=
  { s with
    cmdr := w, sr := loadSr i s.sr, upc := 0#5, busy := true,
    inited := ghostInited i s, frame := ghostFrame i s, viol := s.viol || breaksContract i s }

/-- Completion (R92), in the same atomic step as the last micro-operation. -/
def complete (i : Instr) (s : State) : State :=
  { s with ack := commitAck i s, rxdata := commitRx i s, upc := 0#5, busy := false }

/-- `HostWrite(0, w)` (R96): the busy test comes before decoding. While `rst` is asserted the write is ignored (R151). -/
def writeCmd (w : Word) (s : State) : State :=
  if s.rst then s
  else if s.busy then raise .cmdOverrun s
  else
    match decode w with
    | .illegal _ => raise .illegalCmd s
    | .legal i => launch i w s

/-- The micro-operations the running command has still to execute; none when idle. -/
def remaining (s : State) : List MicroOp :=
  if s.busy then
    match decode s.cmdr with
    | .legal i => (microprogram i).drop s.upc.toNat
    | .illegal _ => []
  else []

/-- The engine's step (R91). When `BUSY = 0` it has none. -/
def engineStep (s : State) : Host.Outcome State Fault Refusal :=
  if s.busy then
    match decode s.cmdr with
    | .illegal _ => .fault .sequencerLost
    | .legal i =>
      match (microprogram i)[s.upc.toNat]? with
      | none => .fault .sequencerLost
      | some m =>
        if s.upc.toNat + 1 < (microprogram i).length then .next { tick m s with upc := s.upc + 1#5 }
        else .next (complete i (tick m s))
  else .next s

/-- The whole of a command, as its caller sees it (R17, R119): `HostWrite(0, encode(i))`, then the engine runs until
`BUSY = 0`, the environment moving before each micro-operation. With `BUSY = 1` the write is an overrun (R138); while
`rst` is asserted it is ignored (R151); a configuration out of bounds is refused (R53). `exec` is the whole call:
DESIGN CHOICE (log 1). -/
def command (i : Instr) (s : State) : Host.Outcome State Fault Refusal :=
  if s.cfg.wf then
    if s.rst || s.busy then .next (writeCmd (encode i) s)
    else .next (complete i (runOps (microprogram i) (launch i (encode i) s)))
  else .refused .badConfig

end Sys2Proof.Machine
end

