-- ==== Sys2Proof/Machine/Framing.lean ====
section
/-! DEFINITION. The framing commands `INIT`, `START`, `STOP` (41_framing.md). -/

namespace Sys2Proof.Machine

/-- `INIT` (R98): both lines released in one write, then both output-latch bits cleared in one write. -/
def execInit (s : State) : Host.Outcome State Fault Refusal := command .init s

/-- `START` (R99): data low, the clock line untouched. -/
def execStart (s : State) : Host.Outcome State Fault Refusal := command .start s

/-- `STOP` (R100): clock low, data low, clock released, data released. -/
def execStop (s : State) : Host.Outcome State Fault Refusal := command .stop s

end Sys2Proof.Machine
end

