-- ==== Sys2Proof/Machine/Transfer.lean ====
section
/-! DEFINITION. The byte-transfer commands `SEND` and `RECV` (42_byte_transfer.md). -/

namespace Sys2Proof.Machine

/-- `SEND value` (R106): eight data bit cells, most significant bit first, then the acknowledge cell; commits `ACK`. -/
def execSend (value : Byte) (s : State) : Host.Outcome State Fault Refusal := command (.send value) s

/-- `RECV ack` (R111): eight sampled bit cells, then the acknowledge cell; commits `RXDATA`. -/
def execRecv (ack : Bool) (s : State) : Host.Outcome State Fault Refusal := command (.recv ack) s

end Sys2Proof.Machine
end

