-- ==== Sys2Proof/Machine/HostAccess.lean ====
section
/-! DEFINITION. The host's accesses to the three host registers (R27 to R30). -/

namespace Sys2Proof.Machine

/-- The host register at a word address: offsets 0, 1, 2 from `HOST_BASE` (R27). -/
def hostReg (c : Config) (addr : Nat) : Option HostReg :=
  if addr = c.hostBase then some .cmd
  else if addr = c.hostBase + 1 then some .status
  else if addr = c.hostBase + 2 then some .rxdata
  else none

/-- The value a host register reads as: `CMD` reads `0x0000` (R27, R29, R30). -/
def hostRegValue (r : HostReg) (s : State) : Word :=
  match r with
  | .cmd => 0x0000#16
  | .status => statusWord s
  | .rxdata => rxdataWord s

/-- `HostRead`: no side effect on the engine, allowed at any time (R27). -/
def hostRead (addr : Nat) (s : State) : Host.Outcome State Fault Refusal :=
  match hostReg s.cfg addr with
  | some r => .next { s with hostData := hostRegValue r s }
  | none => .fault (.noHostRegister addr)

/-- `HostWrite`: to `CMD` an event (R28, R96), to `STATUS` and `RXDATA` ignored (R27). -/
def hostWrite (addr : Nat) (w : Word) (s : State) : Host.Outcome State Fault Refusal :=
  match hostReg s.cfg addr with
  | some .cmd => .next (writeCmd w s)
  | some .status => .next s
  | some .rxdata => .next s
  | none => .fault (.noHostRegister addr)

end Sys2Proof.Machine
end

