-- ==== Sys2Proof/Machine/Eeprom.lean ====
section
/-! DEFINITION. The host's reference software, the EEPROM Protocol Layer: the pseudo-instructions `EE_WRITE` and `EE_READ`
as a machine whose every step is one line of the expansions of R125 and R129, each command a whole call (R73, R119;
DEDUCED, log 13). -/

namespace Sys2Proof.Machine

/-- The memory address of `buf[offset + k]` (R125, R129). -/
def EeArgs.at (a : EeArgs) (k : Nat) : Nat := a.buf.base + a.offset + k

/-- The command a line of an expansion calls; `WAIT` calls none. -/
def eeCommand (s : State) : EeTask → Option Instr
  | .writeStart _ => some .start
  | .writeSelect _ => some (.send s.cfg.ws)
  | .writeAddrHi a => some (.send (addrHi a.addr))
  | .writeAddrLo a => some (.send (addrLo a.addr))
  | .writeData a k => some (.send (Memory.read s.mem (a.at k)))
  | .writeStop => some .stop
  | .pollWait => none
  | .pollStart => some .start
  | .pollSelect => some (.send s.cfg.ws)
  | .writeFinalStop => some .stop
  | .readStart _ => some .start
  | .readSelect _ => some (.send s.cfg.ws)
  | .readAddrHi a => some (.send (addrHi a.addr))
  | .readAddrLo a => some (.send (addrLo a.addr))
  | .readAddrStop _ => some .stop
  | .readRestart _ => some .start
  | .readReselect _ => some (.send s.cfg.rs)
  | .readData a k => some (.recv (decide (k + 1 < a.length)))
  | .readFinalStop => some .stop

/-- Where the pseudo-instruction stands after a line, given the outcome of its `SEND`; `none` is `return`. The abort path
of the addressing phase sends no `STOP` (R126); a data-phase abort does (R127); the busy-poll repeats without bound and
without `STOP` (R128); `EE_READ` issues its final `STOP` whether or not `RS` was acknowledged (D23). -/
def eeNext (ack : Bool) : EeTask → Option EeTask
  | .writeStart a => some (.writeSelect a)
  | .writeSelect a => if ack then some (.writeAddrHi a) else none
  | .writeAddrHi a => if ack then some (.writeAddrLo a) else none
  | .writeAddrLo a => if ack then (if a.length = 0 then some .writeStop else some (.writeData a 0)) else none
  | .writeData a k => if ack && decide (k + 1 < a.length) then some (.writeData a (k + 1)) else some .writeStop
  | .writeStop => some .pollWait
  | .pollWait => some .pollStart
  | .pollStart => some .pollSelect
  | .pollSelect => if ack then some .writeFinalStop else some .pollWait
  | .writeFinalStop => none
  | .readStart a => some (.readSelect a)
  | .readSelect a => if ack then some (.readAddrHi a) else none
  | .readAddrHi a => if ack then some (.readAddrLo a) else none
  | .readAddrLo a => if ack then some (.readAddrStop a) else none
  | .readAddrStop a => some (.readRestart a)
  | .readRestart a => some (.readReselect a)
  | .readReselect a => if ack && decide (0 < a.length) then some (.readData a 0) else some .readFinalStop
  | .readData a k => if k + 1 < a.length then some (.readData a (k + 1)) else some .readFinalStop
  | .readFinalStop => none

/-- `buf[offset + k] <- RECV`: the host stores the byte it reads from `RXDATA[7:0]` (R119, R129). No other line stores. -/
def eeStore (t : EeTask) (s : State) : State :=
  match t with
  | .readData a k => { s with mem := Memory.write s.mem (a.at k) s.rxdata }
  | _ => s

/-- The host performs one line: `WAIT(POLL_WAIT)`, or a call and then, with the outcome in `STATUS.ACK`, the choice of the
next line (R119, R120). -/
def eeStep (t : EeTask) (s : State) : Host.Outcome State Fault Refusal :=
  match eeCommand s t with
  | none => .next { s with waits := s.waits + 1, task := eeNext s.ack t }
  | some i =>
    match exec i s with
    | .next s' => .next { eeStore t s' with task := eeNext s'.ack t }
    | .fault r => .fault r
    | .refused r => .refused r

/-- The host begins a pseudo-instruction. Its parameters must be bound (R161), its buffer large enough (U21), and no other
transaction in progress (R121, U7). -/
def eeBegin (t : EeTask) (a : EeArgs) (s : State) : Host.Outcome State Fault Refusal :=
  if s.cfg.hostWf then
    if a.offset + a.length ≤ a.buf.size then
      match s.task with
      | none => .next { s with task := some t }
      | some _ => .refused .interleavedTransaction
    else .refused .bufferBounds
  else .refused .badHostConfig

/-- The host's turn: it waits while the engine is busy (R119), else performs the next line, if any. -/
def hostStep (s : State) : Host.Outcome State Fault Refusal :=
  if s.busy then .next s
  else
    match s.task with
    | some t => eeStep t s
    | none => .next s

end Sys2Proof.Machine
end

