-- ==== Sys2Proof/Machine/Agents.lean ====
section
/-! DEFINITION. The moves of the agents of R13, and which agent moves when the agenda is empty. -/

namespace Sys2Proof.Machine

/-- The two bits of `DIR` and `OUT` the engine owns. -/
def engineBits (s : State) : Port := sdaBit s ||| sclBit s

/-- The co-user reads a port register: "any agent other than the engine touches the port while `BUSY = 1`" (R38). -/
def couserRead (s : State) : State := { s with viol := s.viol || s.busy }

/-- The co-user writes the bits `bits` of a port register. Writing one of the engine's bits, or any bit while
`BUSY = 1`, is a violation (R26, R38; DEDUCED, log 14). -/
def couserWrite (r : Latch) (bits v : Port) (s : State) : State :=
  let t := memWrite r ((memRead r.port s &&& ~~~bits) ||| (v &&& bits)) s
  { t with viol := s.viol || s.busy || (bits &&& engineBits s != 0#8) }

/-- The co-user's read of the register at a reference (R44, R46); other locations are not in the model (log 24). DESIGN
CHOICE: the value read is `memRead` of that register and is held nowhere: R46 has the read return it and names no place for
it on the co-user's side (log 25). -/
def couserReadAt (ref : Nat) (s : State) : Host.Outcome State Fault Refusal :=
  match portReg s.cfg ref with
  | some _ => .next (couserRead s)
  | none => .fault (.noPortRegister ref)

/-- The co-user's write to the register at a reference (R44, R47); `IN` is read-only (R24; log 24). -/
def couserWriteAt (ref : Nat) (bits v : Port) (s : State) : Host.Outcome State Fault Refusal :=
  match portReg s.cfg ref with
  | some .dir => .next (couserWrite .dir bits v s)
  | some .out => .next (couserWrite .out bits v s)
  | some .input => .fault .inputReadOnly
  | none => .fault (.noPortRegister ref)

/-- The host calls the primitive of a command word (R119). An illegal word is only written (R137, R138). DESIGN CHOICE: the
call's own `HostRead`s of `STATUS` and, for `RECV`, of `RXDATA` leave `hostData` as it was: the call's results are in
`ack` and `rxdata` (log 1, log 17). -/
def hostCall (w : Word) (s : State) : Host.Outcome State Fault Refusal :=
  match decode w with
  | .legal i => exec i s
  | .illegal _ => .next (writeCmd w s)

/-- One move of one agent. -/
def perform (m : Move) (s : State) : Host.Outcome State Fault Refusal :=
  match m with
  | .call w => hostCall w s
  | .hostWrite addr w => hostWrite addr w s
  | .hostRead addr => hostRead addr s
  | .engine => engineStep s
  | .host => hostStep s
  | .env low => .next { s with env := s.env.move low }
  | .couserRead ref => couserReadAt ref s
  | .couserWrite ref bits v => couserWriteAt ref bits v s
  | .rst asserted => .next (setRst asserted s)
  | .eeWrite a _ => eeBegin (.writeStart a) a s
  | .eeRead a => eeBegin (.readStart a) a s

/-- With no move written down a busy engine takes its step (R178), else the host its next line, else the machine idles
(R42, R149; log 11). -/
def idleMove (s : State) : Host.Outcome State Fault Refusal :=
  if s.busy then engineStep s else hostStep s

/-- The next move: the agenda's first, else `idleMove`. -/
def nextMove (s : State) : Host.Outcome State Fault Refusal :=
  match s.agenda with
  | m :: rest => perform m { s with agenda := rest }
  | [] => idleMove s

/-- The host's coming move is the call of the command whose opcode-table word is `w` (log 10). -/
def placeCall (s : State) (nbits w : Nat) : State :=
  { s with agenda := .call (tableWord nbits w) :: s.agenda }

end Sys2Proof.Machine
end

