-- ==== Sys2Proof/Machine/Step.lean ====
section
/-! DEFINITION. One step of the machine: one move of one agent. -/

namespace Sys2Proof.Machine

/-- One step. A configuration that breaks a bound is refused (R53). -/
def step (s : State) : Host.Outcome State Fault Refusal :=
  if s.cfg.wf then nextMove s else .refused .badConfig

/-- `s` with the command whose opcode-table word is `w` as the next one the host calls. The engine has no program counter
into a memory: "the sequence of command words ... is the host's program and lives in the host" (R40; log 10). -/
def State.withFetchWord (s : State) (nbits w : Nat) : State := placeCall s nbits w

end Sys2Proof.Machine
end

