-- ==== Sys2Proof/Machine/Wire.lean ====
section
/-! DEFINITION. The wire-level view (R93): levels of the two lines, the events read off them, and the levels and events a
command produces. -/

namespace Sys2Proof.Machine

/-- `(c, d)`: the levels of the clock and the data line (R93). -/
structure Levels where
  c : Bool
  d : Bool
deriving DecidableEq, Repr

/-- The wire events of R93. -/
inductive WireEvent where
  | start
  | stop
  | bit (b : Bool)
deriving DecidableEq, Repr

/-- The levels in a state. -/
def levels (s : State) : Levels := { c := level s s.cfg.sclIdx, d := level s s.cfg.sdaIdx }

/-- The event of one change of levels (R93). DESIGN CHOICE: where the clock rises and the data line changes in the same
pair (`IR` releasing both lines at once, or one move of the environment) there is no event, neither a bit nor a STOP
condition: R76 and R93 do not say which bit it would be, and R155 leaves undefined what a device reads (log 23). -/
def wireEvent (x y : Levels) : Option WireEvent :=
  if x.c && y.c then
    if x.d && !y.d then some .start
    else if !x.d && y.d then some .stop
    else none
  else if !x.c && y.c && x.d == y.d then some (.bit x.d)
  else none

/-- The events of a sequence of levels. -/
def eventsOf : List Levels → List WireEvent
  | x :: y :: rest =>
    match wireEvent x y with
    | some e => e :: eventsOf (y :: rest)
    | none => eventsOf (y :: rest)
  | _ => []

/-- The levels while a list of micro-operations runs: after each of the environment's moves and after each micro-operation. -/
def opLevels : List MicroOp → State → List Levels
  | [], _ => []
  | m :: ms, s => levels (envMove s) :: levels (tick m s) :: opLevels ms (tick m s)

/-- The wire events of a command run to completion. -/
def commandEvents (i : Instr) (s : State) : List WireEvent :=
  eventsOf (levels s :: opLevels (microprogram i) (launch i (encode i) s))

/-- The bits among a list of events, in order. -/
def eventBits : List WireEvent → List Bool
  | [] => []
  | .bit b :: es => b :: eventBits es
  | .start :: es => eventBits es
  | .stop :: es => eventBits es

end Sys2Proof.Machine
end

