-- ==== Sys2Proof/Safety.lean ====
section
/-! DEFINITION. What claims call a ready engine, a safe run, an invariant, and the views claims are stated through. -/

namespace Sys2Proof.Machine

/-- The engine accepts a command: configuration in bounds, reset released, idle (R28, R53, R151). -/
structure Ready (s : State) : Prop where
  wf : s.cfg.wf = true
  released : s.rst = false
  idle : s.busy = false

/-- The caller's contract has been kept and no error flag is set: what a claim about a run assumes or proves (R38, R141). -/
structure Safe (s : State) : Prop where
  contract : s.viol = false
  legal : s.errIll = false
  noOverrun : s.errOvr = false

/-- Both of the engine's output-latch bits are 0 (R25). -/
def LatchLow (s : State) : Prop :=
  s.out.getLsbD s.cfg.sdaIdx = false ∧ s.out.getLsbD s.cfg.sclIdx = false

/-- A page-safe write: `length` within `PAGE_SIZE` (R54, R131, R173). -/
def EeArgs.withinPage (a : EeArgs) (c : Config) : Prop := a.length ≤ c.pageSize

/-- The least time elapsed, in the unit of `SETTLE` and `POLL_WAIT` (R176, R177). -/
def elapsed (s : State) : Nat := s.settles * s.cfg.settle + s.waits * s.cfg.pollWait

/-- The sequencer's invariant (R18): a busy engine has a legal word in `CMDR` and `UPC` inside its micro-program; an idle
one has `UPC = 0`. -/
def SequencerInv (s : State) : Prop :=
  if s.busy then
    match decode s.cmdr with
    | .legal i => s.upc.toNat < (microprogram i).length
    | .illegal _ => False
  else s.upc = 0#5

/-- While `rst` is asserted the engine's registers hold their reset values (R151). -/
def ResetHeld (s : State) : Prop :=
  s.rst = true →
    s.cmdr = 0x0000#16 ∧ s.sr = 0x00#8 ∧ s.upc = 0#5 ∧ s.busy = false ∧ s.ack = false ∧ s.rxdata = 0x00#8 ∧
      s.errIll = false ∧ s.errOvr = false

/-- The line driver's invariant (R25): from the completion of the first `INIT` on, and while nothing but the engine has
written the engine's bits, both output-latch bits are 0. -/
def OpenDrainInv (s : State) : Prop :=
  s.inited = true → s.viol = false → ¬(s.busy = true ∧ s.cmdr = encode .init) → LatchLow s

/-- What `DIR[SCL_IDX]` is after a list of micro-operations. -/
def clockAfter : List MicroOp → Bool → Bool
  | [], b => b
  | .CL :: ms, _ => clockAfter ms true
  | .CR :: ms, _ => clockAfter ms false
  | .IR :: ms, _ => clockAfter ms false
  | .DL :: ms, b => clockAfter ms b
  | .DR :: ms, b => clockAfter ms b
  | .DS :: ms, b => clockAfter ms b
  | .DA :: ms, b => clockAfter ms b
  | .SMA :: ms, b => clockAfter ms b
  | .SMD :: ms, b => clockAfter ms b
  | .OC :: ms, b => clockAfter ms b

/-- What `DIR[SDA_IDX]` is after a list of micro-operations in which every `DS` is followed by another data operation;
`ack` is `CMDR[0]`. -/
def dataAfter (ack : Bool) : List MicroOp → Bool → Bool
  | [], b => b
  | .DL :: ms, _ => dataAfter ack ms true
  | .DR :: ms, _ => dataAfter ack ms false
  | .IR :: ms, _ => dataAfter ack ms false
  | .DA :: ms, b => dataAfter ack ms (ack || b)
  | .DS :: ms, b => dataAfter ack ms b
  | .CL :: ms, b => dataAfter ack ms b
  | .CR :: ms, b => dataAfter ack ms b
  | .SMA :: ms, b => dataAfter ack ms b
  | .SMD :: ms, b => dataAfter ack ms b
  | .OC :: ms, b => dataAfter ack ms b

/-- The data line is held low after a command: after `START` and after `RECV` with acknowledge only (R39, R116). -/
def holdsData : Instr → Bool
  | .init => false
  | .start => true
  | .stop => false
  | .send _ => false
  | .recv a => a

/-- The end state of the two `DIR` bits that the command in `CMDR` is heading for (R39): the clock released, the data line
held low exactly after `START` and `RECV` with acknowledge. At a command boundary `remaining` is empty and this says what
the two bits are. -/
def RestInv (s : State) : Prop :=
  s.inited = true → s.viol = false →
    clockAfter (remaining s) (sclDriven s) = false ∧
      (match decode s.cmdr with
        | .legal i => dataAfter (ackOperand s) (remaining s) (sdaDriven s) = holdsData i
        | .illegal _ => False)

/-- The host's memory is in its canonical form. -/
def MemInv (s : State) : Prop := Memory.wf s.mem = true

/-- The arguments of a pseudo-instruction fit its buffer (U21). -/
def EeArgs.fits (a : EeArgs) : Prop := a.offset + a.length ≤ a.buf.size

/-- A pseudo-instruction in progress fits its buffer, and in its data phase the index is below `length` (R130). -/
def EeTask.inBounds : EeTask → Prop
  | .writeStart a => a.fits
  | .writeSelect a => a.fits
  | .writeAddrHi a => a.fits
  | .writeAddrLo a => a.fits
  | .writeData a k => a.fits ∧ k < a.length
  | .writeStop => True
  | .pollWait => True
  | .pollStart => True
  | .pollSelect => True
  | .writeFinalStop => True
  | .readStart a => a.fits
  | .readSelect a => a.fits
  | .readAddrHi a => a.fits
  | .readAddrLo a => a.fits
  | .readAddrStop a => a.fits
  | .readRestart a => a.fits
  | .readReselect a => a.fits
  | .readData a k => a.fits ∧ k < a.length
  | .readFinalStop => True

/-- The host's side: memory in canonical form, the transaction in progress within its buffer. -/
def HostInv (s : State) : Prop := MemInv s ∧ ∀ t, s.task = some t → t.inBounds

/-- `n` engine steps (R91), stopping at a fault or a refusal. -/
def engineSteps : Nat → State → Host.Outcome State Fault Refusal
  | 0, s => .next s
  | n + 1, s =>
    match engineStep s with
    | .next t => engineSteps n t
    | .fault r => .fault r
    | .refused r => .refused r

/-- A line operation of the engine on the data line (R94). -/
def isDataOp : MicroOp → Bool
  | .CL => false
  | .CR => false
  | .DL => true
  | .DR => true
  | .DS => true
  | .DA => true
  | .SMA => false
  | .SMD => false
  | .IR => false
  | .OC => false

/-- The settle delays a micro-operation takes, given `CMDR[0]` (R90). -/
def settlesOf (ack : Bool) : MicroOp → Nat
  | .CL => 1
  | .CR => 1
  | .DL => 1
  | .DR => 1
  | .DS => 1
  | .DA => if ack then 1 else 0
  | .SMA => 0
  | .SMD => 0
  | .IR => 1
  | .OC => 0

/-- A byte's bits, most significant first (R50). -/
def bitsMsbFirst (v : Byte) : List Bool :=
  [v.getLsbD 7, v.getLsbD 6, v.getLsbD 5, v.getLsbD 4, v.getLsbD 3, v.getLsbD 2, v.getLsbD 1, v.getLsbD 0]

/-- The byte assembled from samples, the first in the highest bit (R114). -/
def byteOfSamples : List Bool → Byte
  | bs => bs.foldl shiftIn 0#8

/-- The environment pulls neither line low now nor at any of its next `n` moves. -/
def Env.quietFor (n : Nat) (e : Env) : Prop :=
  e.low = { sda := false, scl := false } ∧
    e.answers.take n = List.replicate n { sda := false, scl := false }

/-- The environment's moves during a `RECV` that make its samples read `bits`, first bit first; it never pulls the clock.
The samples are taken at the environment's moves 4, 7, 10, ..., 25 (R97). -/
def presents (bits : List Bool) : List EnvLow :=
  let hold (b : Bool) : List EnvLow := List.replicate 3 { sda := !b, scl := false }
  { sda := false, scl := false } :: bits.flatMap hold ++ List.replicate 3 { sda := false, scl := false }

/-- The environment with everything it does to the clock line forgotten, now and in its written moves. -/
def Env.forgetClock (e : Env) : Env :=
  { e with low := { e.low with scl := false }, answers := e.answers.map (fun a => { a with scl := false }) }

end Sys2Proof.Machine
end

