-- ==== Sys2Proof/Certificates/Slice0/Obligations.lean ====
section
/-! DEFINITION. The statements about the model, each formalising numbered rules of the spec (`OBLIGATIONS.json` names the
rules). -/

open Sys2Proof Sys2Proof.Machine

/-! ### Encoding (30_encoding.md) -/

/-- Every well-formed command decodes from its own word: no bit of an encoding is dropped (R71). -/
def Obligations.EncodeThenDecode : Prop :=
  ∀ i : Instr, i.wellFormed = true → decode (encode i) = .legal i

/-- `decode` is R71's chain on all 65536 words, with `encode` its inverse on the legal ones. -/
def Obligations.DecodeFollowsTheChain : Prop :=
  ∀ w : Word,
    (if opField w = 0x01#8 ∧ argField w = 0x00#8 then decode w = .legal .init
      else if opField w = 0x02#8 ∧ argField w = 0x00#8 then decode w = .legal .start
      else if opField w = 0x03#8 ∧ argField w = 0x00#8 then decode w = .legal .stop
      else if opField w = 0x04#8 then decode w = .legal (.send (argField w))
      else if opField w = 0x05#8 ∧ (argField w).extractLsb' 1 7 = 0#7 then
        decode w = .legal (.recv ((argField w).getLsbD 0))
      else ∃ why, decode w = .illegal why) ∧
    (∀ i, decode w = .legal i → encode i = w) ∧
    encode .init = 0x0100#16 ∧ encode .start = 0x0200#16 ∧ encode .stop = 0x0300#16 ∧
    (∀ v : Byte, encode (.send v) = 0x0400#16 ||| v.zeroExtend 16 ∧ decode (encode (.send v)) = .legal (.send v)) ∧
    (∀ a : Bool, encode (.recv a) = 0x0500#16 ||| (BitVec.ofBool a).zeroExtend 16 ∧
      decode (encode (.recv a)) = .legal (.recv a))

/-- A word selects the row whose `(w & mask) = match`, and the rows are disjoint (R67). -/
def Obligations.TableRowsSelectTheCommand : Prop :=
  ∀ w : Word,
    (∀ i, decode w = .legal i → rowSelects i w = true) ∧
    (∀ i, rowSelects i w = true → ∃ j, decode w = .legal j ∧ rowMatch j = rowMatch i) ∧
    (∀ i j, rowSelects i w = true → rowSelects j w = true → rowMatch i = rowMatch j)

/-- The illegal words are exactly those that R68 lists, and the word of all zeros is one. -/
def Obligations.IllegalWordsAreThoseListed : Prop :=
  ∀ w : Word,
    (∃ why, decode w = .illegal why) ↔
      opField w = 0x00#8 ∨ 0x06#8 ≤ opField w ∨
        ((opField w = 0x01#8 ∨ opField w = 0x02#8 ∨ opField w = 0x03#8) ∧ argField w ≠ 0x00#8) ∨
        (opField w = 0x05#8 ∧ (argField w).extractLsb' 1 7 ≠ 0#7)

/-- Words written out bit by bit from the opcode table's encodings decode to the commands they stand for. -/
def Obligations.WrittenOutWordsDecode : Prop :=
  decodeTableWord 16 0b0000000100000000 = some .init ∧
  decodeTableWord 16 0b0000001000000000 = some .start ∧
  decodeTableWord 16 0b0000001100000000 = some .stop ∧
  decodeTableWord 16 0b0000010010100101 = some (.send 0xA5#8) ∧
  decodeTableWord 16 0b0000010100000001 = some (.recv true) ∧
  decodeTableWord 16 0b0000010100000000 = some (.recv false) ∧
  decodeTableWord 16 0b0000010100000010 = none

/-! ### Port access and micro-operations (20_memory.md, 40_line_driver.md) -/

/-- `PortClr` and `PortSet` change exactly the bits of the mask, of the one register they name (R48). -/
def Obligations.PortAccessChangesTheMaskOnly : Prop :=
  ∀ (m : Port) (s : State) (q : Nat), q < 8 →
    ((portClr .dir m s).dir.getLsbD q = (s.dir.getLsbD q && !m.getLsbD q)) ∧
    ((portSet .dir m s).dir.getLsbD q = (s.dir.getLsbD q || m.getLsbD q)) ∧
    ((portClr .out m s).out.getLsbD q = (s.out.getLsbD q && !m.getLsbD q)) ∧
    ((portSet .out m s).out.getLsbD q = (s.out.getLsbD q || m.getLsbD q)) ∧
    portClr .dir m s = { s with dir := (portClr .dir m s).dir } ∧
    portSet .dir m s = { s with dir := (portSet .dir m s).dir } ∧
    portClr .out m s = { s with out := (portClr .out m s).out } ∧
    portSet .out m s = { s with out := (portSet .out m s).out }

/-- Idempotency (R49): the read-modify-write forms, unchanged writes, the host's reads; a `CMD` write is not idempotent. -/
def Obligations.AccessIdempotency : Prop :=
  (∀ (r : Latch) (m : Port) (s : State),
    portClr r m (portClr r m s) = portClr r m s ∧ portSet r m (portSet r m s) = portSet r m s) ∧
  (∀ (r : Latch) (s : State) (p : Nat), level (memWrite r (memRead r.port s) s) p = level s p) ∧
  (∀ (k : Nat) (s t : State), k = 1 ∨ k = 2 → hostRead (s.cfg.hostBase + k) s = .next t →
    hostRead (s.cfg.hostBase + k) t = .next t ∧ t = { s with hostData := t.hostData }) ∧
  (∀ (w : Word) (i : Instr) (s : State), Ready s → decode w = .legal i →
    writeCmd w s = launch i w s ∧ writeCmd w (writeCmd w s) = { launch i w s with errOvr := true })

/-- Reading `IN` gives the levels of the pins, and a level is R34's table; the contended level is left free. -/
def Obligations.InputFollowsTheLevels : Prop :=
  ∀ (s : State) (p : Nat), p < 8 →
    (memRead .input s).getLsbD p = level s p ∧ memReadBit .input p s = level s p ∧
    memReadBit .dir p s = (memRead .dir s).getLsbD p ∧ memReadBit .out p s = (memRead .out s).getLsbD p ∧
    (s.dir.getLsbD p = true → s.out.getLsbD p = false → level s p = false) ∧
    (s.dir.getLsbD p = false → level s p = !envLow s p) ∧
    (s.dir.getLsbD p = true → s.out.getLsbD p = true → envLow s p = false → level s p = true)

/-- `CL`, `CR`, `DL`, `DR` (R80 to R83): the `DIR` bit, the settle delay, and the line's level after it. -/
def Obligations.LineOperationsDriveTheLines : Prop :=
  ∀ s : State, s.cfg.wf = true →
    (opCL s = { s with dir := s.dir ||| bit s.cfg.sclIdx, settles := s.settles + 1 } ∧
      (s.out.getLsbD s.cfg.sclIdx = false → level (opCL s) s.cfg.sclIdx = false) ∧
      (sclDriven s = true → (opCL s).dir = s.dir)) ∧
    (opCR s = { s with dir := s.dir &&& ~~~bit s.cfg.sclIdx, settles := s.settles + 1 } ∧
      level (opCR s) s.cfg.sclIdx = !s.env.low.scl ∧
      (sclDriven s = false → (opCR s).dir = s.dir)) ∧
    (opDL s = { s with dir := s.dir ||| bit s.cfg.sdaIdx, settles := s.settles + 1 } ∧
      (s.out.getLsbD s.cfg.sdaIdx = false → level (opDL s) s.cfg.sdaIdx = false) ∧
      (sdaDriven s = true → (opDL s).dir = s.dir)) ∧
    (opDR s = { s with dir := s.dir &&& ~~~bit s.cfg.sdaIdx, settles := s.settles + 1 } ∧
      level (opDR s) s.cfg.sdaIdx = !s.env.low.sda ∧
      (sdaDriven s = false → (opDR s).dir = s.dir))

/-- `DS` (R84): bit 7 of `SR` decides the data line, then `SR` shifts left; eight of them empty it. `DA` (R85): drives the
data line low if `CMDR[0]` is 1, else does nothing at all. -/
def Obligations.ConditionalLineOperations : Prop :=
  (∀ s : State,
    (s.sr.getLsbD 7 = true →
      opDS s = { s with dir := s.dir &&& ~~~bit s.cfg.sdaIdx, settles := s.settles + 1, sr := s.sr <<< 1 }) ∧
    (s.sr.getLsbD 7 = false →
      opDS s = { s with dir := s.dir ||| bit s.cfg.sdaIdx, settles := s.settles + 1, sr := s.sr <<< 1 })) ∧
  (∀ s : State, (runOps (times 8 [.DS]) s).sr = 0x00#8) ∧
  (∀ s : State,
    (s.cmdr.getLsbD 0 = true → opDA s = { s with dir := s.dir ||| bit s.cfg.sdaIdx, settles := s.settles + 1 }) ∧
    (s.cmdr.getLsbD 0 = false → opDA s = s))

/-- `SMA` and `SMD` (R86, R87): one sample of the data line; while the engine releases it, the environment's answer. After
eight insertions the first sample is in bit 7 and nothing of the old register is left (R114). -/
def Obligations.SamplesReadTheDataLine : Prop :=
  (∀ s : State, s.cfg.wf = true →
    opSMA s = { s with ackbit := !level s s.cfg.sdaIdx } ∧
    opSMD s = { s with sr := (s.sr <<< 1) ||| (BitVec.ofBool (level s s.cfg.sdaIdx)).zeroExtend 8 } ∧
    (sdaDriven s = false → (opSMA s).ackbit = s.env.low.sda ∧ (opSMD s).sr.getLsbD 0 = !s.env.low.sda)) ∧
  (∀ (v : Byte) (s1 s2 s3 s4 s5 s6 s7 s8 : Bool),
    bitsMsbFirst ([s1, s2, s3, s4, s5, s6, s7, s8].foldl shiftIn v) = [s1, s2, s3, s4, s5, s6, s7, s8])

/-- `IR` and `OC` (R89): both bits in one write, all others kept; `OC` after `IR` changes no line level; only `OC` writes
`OUT`. -/
def Obligations.InitialisationOperations : Prop :=
  (∀ s : State,
    opIR s = { s with dir := s.dir &&& ~~~(bit s.cfg.sdaIdx ||| bit s.cfg.sclIdx), settles := s.settles + 1 } ∧
    opOC s = { s with out := s.out &&& ~~~(bit s.cfg.sdaIdx ||| bit s.cfg.sclIdx) } ∧
    (opIR (opIR s)).dir = (opIR s).dir ∧ opOC (opOC s) = opOC s) ∧
  (∀ s : State, s.cfg.wf = true → levels (opOC (opIR s)) = levels (opIR s)) ∧
  (∀ (s : State) (q : Nat), q ≠ s.cfg.sdaIdx → q ≠ s.cfg.sclIdx →
    (opIR s).dir.getLsbD q = s.dir.getLsbD q ∧ (opOC s).out.getLsbD q = s.out.getLsbD q) ∧
  (∀ (m : MicroOp) (s : State), m ≠ .OC → (execMicro m s).out = s.out)

/-- Before `INIT` a latch bit of 1 makes `CL`, `DL` and `DS` of a 0 drive their line high (R163). -/
def Obligations.LatchOneDrivesHigh : Prop :=
  ∀ s : State, s.cfg.wf = true →
    (s.out.getLsbD s.cfg.sclIdx = true → s.env.low.scl = false → level (opCL s) s.cfg.sclIdx = true) ∧
    (s.out.getLsbD s.cfg.sdaIdx = true → s.env.low.sda = false → level (opDL s) s.cfg.sdaIdx = true) ∧
    (s.out.getLsbD s.cfg.sdaIdx = true → s.env.low.sda = false → srTop s = false →
      level (opDS s) s.cfg.sdaIdx = true)

/-! ### Launch, engine step, completion (R91, R92, R96) -/

/-- A write to `CMD` (R96): the busy test before decoding, an illegal word, a launch, which touches no port register and no
line. -/
def Obligations.CmdWriteLaunchesOrRaises : Prop :=
  ∀ (w : Word) (s : State), s.rst = false →
    (s.busy = true → writeCmd w s = { s with errOvr := true }) ∧
    (s.busy = false → ∀ why, decode w = .illegal why → writeCmd w s = { s with errIll := true }) ∧
    (s.busy = false → ∀ i, decode w = .legal i →
      writeCmd w s = { s with
        cmdr := w
        sr := (match i with | .send v => v | .recv _ => 0x00#8 | _ => s.sr)
        upc := 0#5, busy := true
        inited := ghostInited i s, frame := ghostFrame i s, viol := s.viol || breaksContract i s } ∧
      levels (writeCmd w s) = levels s)

/-- The ghost transitions at launch (R38). -/
def Obligations.GhostTransitionsAtLaunch : Prop :=
  ∀ (i : Instr) (w : Word) (s : State),
    let t := launch i w s
    match i with
    | .init => t.inited = true ∧ t.frame = .closed ∧ (t.viol = true ↔ s.viol = true ∨ s.frame = .opened)
    | .start => t.inited = s.inited ∧ t.frame = .opened ∧
        (t.viol = true ↔ s.viol = true ∨ s.inited = false ∨ sclDriven s = true ∨ sdaDriven s = true)
    | .stop => t.inited = s.inited ∧ t.frame = .closed ∧ (t.viol = true ↔ s.viol = true ∨ s.inited = false)
    | .send _ => t.inited = s.inited ∧ t.frame = s.frame ∧
        (t.viol = true ↔ s.viol = true ∨ s.inited = false ∨ s.frame = .closed)
    | .recv _ => t.inited = s.inited ∧ t.frame = s.frame ∧
        (t.viol = true ↔ s.viol = true ∨ s.inited = false ∨ s.frame = .closed)

/-- The engine's step (R91) and completion (R92). -/
def Obligations.EngineStepExecutesOneMicroOperation : Prop :=
  (∀ s : State, s.busy = false → engineStep s = .next s) ∧
  (∀ (s : State) (i : Instr) (m : MicroOp), s.busy = true → decode s.cmdr = .legal i →
    (microprogram i)[s.upc.toNat]? = some m →
    (s.upc.toNat + 1 < (microprogram i).length →
      engineStep s = .next { execMicro m (envMove s) with upc := s.upc + 1#5 }) ∧
    (s.upc.toNat + 1 = (microprogram i).length →
      let t := execMicro m (envMove s)
      engineStep s = .next { t with
        ack := (match i with | .send _ => t.ackbit | _ => t.ack)
        rxdata := (match i with | .recv _ => t.sr | _ => t.rxdata)
        upc := 0#5, busy := false }))

/-- The micro-program table of R97, with its lengths and the number of line operations with a settle delay. -/
def Obligations.MicroProgramTable : Prop :=
  microprogram .init = [.IR, .OC] ∧ microprogram .start = [.DL] ∧ microprogram .stop = [.CL, .DL, .CR, .DR] ∧
  (∀ v, microprogram (.send v) = (List.replicate 8 [MicroOp.CL, .DS, .CR]).flatten ++ [.CL, .DR, .CR, .SMA]) ∧
  (∀ a, microprogram (.recv a) =
    [MicroOp.CL, .DR, .CR, .SMD] ++ (List.replicate 7 [MicroOp.CL, .CR, .SMD]).flatten ++ [.CL, .DA, .CR]) ∧
  (∀ i, (microprogram i).length =
    (match i with | .init => 2 | .start => 1 | .stop => 4 | .send _ => 28 | .recv _ => 28)) ∧
  (∀ i, ((microprogram i).map (settlesOf ((encode i).getLsbD 0))).sum =
    (match i with | .init => 1 | .start => 1 | .stop => 4 | .send _ => 27 | .recv a => if a then 20 else 19))

/-- A launched command completes after exactly `length(prog)` engine steps (R92), with the state `exec` answers: a call
is the launch followed by the engine's single steps, and until the last of them the engine stays busy. That `exec` is the
whole call is the model's choice (log 1), which this justifies. -/
def Obligations.CommandIsItsEngineSteps : Prop :=
  ∀ (i : Instr) (s : State), Ready s →
    engineSteps (microprogram i).length (writeCmd (encode i) s) = exec i s ∧
    (∀ k, k < (microprogram i).length →
      ∃ t, engineSteps k (writeCmd (encode i) s) = .next t ∧ t.busy = true ∧ t.upc.toNat = k ∧ t.cmdr = encode i)

/-! ### The five commands -/

/-- `INIT` (R98): the whole next state. -/
def Obligations.InitResult : Prop :=
  ∀ s : State, Ready s →
    exec .init s = .next { s with
      cmdr := 0x0100#16, upc := 0#5
      dir := s.dir &&& ~~~(bit s.cfg.sdaIdx ||| bit s.cfg.sclIdx)
      out := s.out &&& ~~~(bit s.cfg.sdaIdx ||| bit s.cfg.sclIdx)
      env := Env.after 2 s.env, inited := true, frame := .closed
      viol := s.viol || s.frame == .opened, settles := s.settles + 1 }

/-- `START` (R99): the whole next state. -/
def Obligations.StartResult : Prop :=
  ∀ s : State, Ready s →
    exec .start s = .next { s with
      cmdr := 0x0200#16, upc := 0#5, dir := s.dir ||| bit s.cfg.sdaIdx
      env := Env.after 1 s.env, frame := .opened
      viol := s.viol || (!s.inited || sclDriven s || sdaDriven s), settles := s.settles + 1 }

/-- `STOP` (R100): the whole next state. -/
def Obligations.StopResult : Prop :=
  ∀ s : State, Ready s →
    exec .stop s = .next { s with
      cmdr := 0x0300#16, upc := 0#5
      dir := s.dir &&& ~~~(bit s.cfg.sdaIdx ||| bit s.cfg.sclIdx)
      env := Env.after 4 s.env, frame := .closed
      viol := s.viol || !s.inited, settles := s.settles + 4 }

/-- `SEND value` (R106, R109, R110): the whole next state; `ACK` is what the environment does to the data line at the one
sample, after its 28th move. -/
def Obligations.SendResult : Prop :=
  ∀ (v : Byte) (s : State), Ready s →
    exec (.send v) s = .next { s with
      cmdr := 0x0400#16 ||| v.zeroExtend 16, sr := 0x00#8, upc := 0#5
      ack := (Env.after 28 s.env).low.sda, ackbit := (Env.after 28 s.env).low.sda
      dir := s.dir &&& ~~~(bit s.cfg.sdaIdx ||| bit s.cfg.sclIdx)
      env := Env.after 28 s.env
      viol := s.viol || (!s.inited || s.frame == .closed), settles := s.settles + 27 }

/-- The bits that the eight samples of a `RECV` read: the released data line at the environment's moves 4, 7, ..., 25. -/
def recvSamples (e : Env) : List Bool :=
  [4, 7, 10, 13, 16, 19, 22, 25].map (fun n => !(Env.after n e).low.sda)

/-- `RECV ack` (R111, R113, R114): the whole next state. -/
def Obligations.RecvResult : Prop :=
  ∀ (a : Bool) (s : State), Ready s →
    exec (.recv a) s = .next { s with
      cmdr := 0x0500#16 ||| (BitVec.ofBool a).zeroExtend 16, upc := 0#5
      sr := byteOfSamples (recvSamples s.env), rxdata := byteOfSamples (recvSamples s.env)
      dir := if a then (s.dir &&& ~~~bit s.cfg.sclIdx) ||| bit s.cfg.sdaIdx
        else s.dir &&& ~~~(bit s.cfg.sdaIdx ||| bit s.cfg.sclIdx)
      env := Env.after 28 s.env
      viol := s.viol || (!s.inited || s.frame == .closed)
      settles := s.settles + (if a then 20 else 19) }

/-- End states of the two `DIR` bits from any start state (R116). -/
def Obligations.EndStates : Prop :=
  ∀ (i : Instr) (s : State), Ready s → ∃ t, exec i s = .next t ∧
    (match i with
      | .init => sclDriven t = false ∧ sdaDriven t = false
      | .start => sclDriven t = sclDriven s ∧ sdaDriven t = true ∧
          (t.viol = false → sclDriven t = false)
      | .stop => sclDriven t = false ∧ sdaDriven t = false
      | .send _ => sclDriven t = false ∧ sdaDriven t = false
      | .recv a => sclDriven t = false ∧ sdaDriven t = a)

/-- `INIT` is idempotent on the port, and the only command after which `OUT` may differ (R101). -/
def Obligations.InitIsIdempotent : Prop :=
  (∀ s : State, Ready s → ∃ t u, exec .init s = .next t ∧ exec .init t = .next u ∧
    u.dir = t.dir ∧ u.out = t.out ∧
    t.dir = s.dir &&& ~~~(bit s.cfg.sdaIdx ||| bit s.cfg.sclIdx) ∧
    t.out = s.out &&& ~~~(bit s.cfg.sdaIdx ||| bit s.cfg.sclIdx)) ∧
  (∀ (i : Instr) (s t : State), i ≠ .init → exec i s = .next t → t.out = s.out)

/-- What a command leaves unchanged, whichever it is: from any state from which `exec` answers a next state, every byte
of memory, the host's side, the configuration, the reset input and `ERR_ILL`; `ERR_OVR` unless the engine was busy;
`ACK` but for `SEND`, `RXDATA` but for `RECV`, `SR` but for both, `OUT` but for `INIT`, and every bit of `DIR` and `OUT`
that is not one of the engine's two. -/
def Obligations.CommandFrame : Prop :=
  ∀ (i : Instr) (s t : State), exec i s = .next t →
    (∀ x, Memory.read t.mem x = Memory.read s.mem x) ∧ t.mem = s.mem ∧
    t.cfg = s.cfg ∧ t.rst = s.rst ∧ t.errIll = s.errIll ∧ t.waits = s.waits ∧ t.hostData = s.hostData ∧
    t.task = s.task ∧ t.agenda = s.agenda ∧
    (s.busy = false → t.errOvr = s.errOvr) ∧
    ((∀ v, i ≠ .send v) → t.ack = s.ack ∧ t.ackbit = s.ackbit) ∧
    ((∀ a, i ≠ .recv a) → t.rxdata = s.rxdata) ∧
    ((∀ v, i ≠ .send v) → (∀ a, i ≠ .recv a) → t.sr = s.sr) ∧
    (i ≠ .init → t.out = s.out) ∧
    (∀ q, q ≠ s.cfg.sdaIdx → q ≠ s.cfg.sclIdx →
      t.dir.getLsbD q = s.dir.getLsbD q ∧ t.out.getLsbD q = s.out.getLsbD q)

/-- A command's settle delays and micro-operations (R176): the least time it takes is its number of delays times `SETTLE`. -/
def Obligations.CommandSettleDelays : Prop :=
  ∀ (i : Instr) (s : State), Ready s → ∃ t, exec i s = .next t ∧
    (let n := match i with | .init => 1 | .start => 1 | .stop => 4 | .send _ => 27 | .recv a => if a then 20 else 19
     t.settles = s.settles + n ∧ elapsed t = elapsed s + n * s.cfg.settle ∧
       ((microprogram i).map (settlesOf ((encode i).getLsbD 0))).sum = n) ∧
    (microprogram i).length =
      (match i with | .init => 2 | .start => 1 | .stop => 4 | .send _ => 28 | .recv _ => 28)

/-! ### Errors (60_exceptions.md) -/

/-- `IllegalCmd` (R137): setting `ERR_ILL` is its whole effect. -/
def Obligations.IllegalCmdSetsItsFlagOnly : Prop :=
  ∀ (w : Word) (why : Illegal) (s : State), s.cfg.wf = true → s.rst = false → s.busy = false →
    decode w = .illegal why →
    writeCmd w s = { s with errIll := true } ∧
    hostWrite s.cfg.hostBase w s = .next { s with errIll := true } ∧
    hostCall w s = .next { s with errIll := true }

/-- `CmdOverrun` (R138): setting `ERR_OVR` is its whole effect, for any word, legal or not; the running command goes on to
its completion as if the write had not been made. That a whole call (`exec`) on a busy engine answers at once, with its
write turned away, is the model's choice (log 1). -/
def Obligations.CmdOverrunLeavesTheCommandRunning : Prop :=
  ∀ s : State, s.cfg.wf = true → s.rst = false → s.busy = true →
    (∀ w, writeCmd w s = { s with errOvr := true }) ∧
    (∀ i, exec i s = .next { s with errOvr := true }) ∧
    (∀ n t, engineSteps n s = .next t → engineSteps n { s with errOvr := true } = .next { t with errOvr := true })

/-- The error flags are sticky: a step clears one only by asserting reset; and they gate nothing: a command runs the same
whatever they hold (R141). -/
def Obligations.ErrorFlagsAreStickyAndGateNothing : Prop :=
  (∀ s t : State, step s = .next t → (∀ rest, s.agenda ≠ .rst true :: rest) →
    (s.errIll = true → t.errIll = true) ∧ (s.errOvr = true → t.errOvr = true)) ∧
  (∀ (i : Instr) (s : State) (x y : Bool), Ready s →
    ∃ t, exec i s = .next t ∧
      exec i { s with errIll := x, errOvr := y } = .next { t with errIll := x, errOvr := y })

/-- Contract violations are executed, not detected (R144): the ghost state has no effect on anything but itself. -/
def Obligations.GhostStateHasNoEffect : Prop :=
  ∀ (i : Instr) (s : State) (g : Bool) (f : Frame) (v : Bool), Ready s →
    ∃ t g' f' v', exec i s = .next t ∧
      exec i { s with inited := g, frame := f, viol := v } = .next { t with inited := g', frame := f', viol := v' }

/-- A configuration that breaks a bound is refused (R53, R8, and the constraint "distinct registers of one port"; log 19). -/
def Obligations.BadConfigurationIsRefused : Prop :=
  ∀ s : State, ¬(s.cfg.sdaIdx < 8 ∧ s.cfg.sclIdx < 8 ∧ s.cfg.sdaIdx ≠ s.cfg.sclIdx ∧ 0 < s.cfg.settle ∧
      s.cfg.dirRef ≠ s.cfg.outRef ∧ s.cfg.dirRef ≠ s.cfg.inRef ∧ s.cfg.outRef ≠ s.cfg.inRef) →
    step s = .refused .badConfig ∧ ∀ i, exec i s = .refused .badConfig

/-- The diagnostic hook changes nothing (R147). -/
def Obligations.DiagnosticHookIsInert : Prop :=
  ∀ (i : Instr) (s t : State) (h : Bool), exec i s = .next t →
    exec i { s with cfg := { s.cfg with hasDiag := h } } = .next { t with cfg := { t.cfg with hasDiag := h } }

/-- The engine never samples the clock line (R95): what the environment does to it changes nothing the engine holds, and a
command runs to its end whatever it does. -/
def Obligations.ClockLineIsNeverSampled : Prop :=
  ∀ (i : Instr) (s : State), Ready s →
    ∃ t u, exec i s = .next t ∧ exec i { s with env := s.env.forgetClock } = .next u ∧ u = { t with env := u.env }

/-! ### The wire (R93, R94, R102, R103, R107, R118) -/

/-- `START` produces a START condition exactly when both lines are high just before its `DL` (R102). -/
def Obligations.StartConditionExactlyWhenBothHigh : Prop :=
  ∀ s : State, Ready s → LatchLow s →
    let before := envMove (launch .start (encode .start) s)
    exec .start s = .next (complete .start (opDL before)) ∧
      (wireEvent (levels before) (levels (opDL before)) = some .start ↔
        level before s.cfg.sclIdx = true ∧ level before s.cfg.sdaIdx = true)

/-- `STOP` produces a STOP condition exactly when at its final `DR` the environment pulls neither line; its first two
operations hold the clock low, the third leaves data low and the clock released (R103). -/
def Obligations.StopConditionExactlyWhenUnpulled : Prop :=
  ∀ s : State, Ready s → LatchLow s →
    let a := tick .CL (launch .stop (encode .stop) s)
    let b := tick .DL a
    let c := tick .CR b
    let before := envMove c
    level a s.cfg.sclIdx = false ∧ level b s.cfg.sclIdx = false ∧ level b s.cfg.sdaIdx = false ∧
    sdaDriven c = true ∧ sclDriven c = false ∧ level c s.cfg.sdaIdx = false ∧
    exec .stop s = .next (complete .stop (opDR before)) ∧
      (wireEvent (levels before) (levels (opDR before)) = some .stop ↔
        before.env.low = { sda := false, scl := false })

/-- Edge legality (R94): from any state of the two `DIR` bits, the engine changes its data bit only while it holds the
clock low, but for the `DL` of `START`, the last `DR` of `STOP` and `INIT`'s `IR`. -/
def Obligations.DataChangesUnderClockLow : Prop :=
  ∀ (i : Instr) (w : Word) (s : State) (pre post : List MicroOp) (m : MicroOp), s.cfg.wf = true →
    microprogram i = pre ++ m :: post →
    let t := runOps pre (launch i w s)
    sdaDriven (tick m t) ≠ sdaDriven t →
      (sclDriven t = true ∧ sclDriven (tick m t) = true) ∨
      (i = .start ∧ m = .DL) ∨ (i = .stop ∧ m = .DR ∧ post = []) ∨ (i = .init ∧ m = .IR)

/-- On a bus nobody pulls a `SEND` shows nine bits on the wire and nothing else: the byte, most significant bit first, and
the released acknowledge bit; a `RECV` shows eight released bits and the acknowledge the host chose (R50, R93, R107, R108,
R113). -/
def Obligations.ByteTransfersOnAQuietWire : Prop :=
  ∀ s : State, Ready s → LatchLow s → s.env.quietFor 28 →
    (∀ v : Byte, commandEvents (.send v) s = (bitsMsbFirst v ++ [true]).map .bit) ∧
    (∀ a : Bool, commandEvents (.recv a) s = (List.replicate 8 true ++ [!a]).map .bit)

/-- The loop-back law (R118): a `SEND v` that nobody disturbs, then a `RECV` in any environment whose pulls at the eight
samples replay the levels the data line had at the eight clock rises of the `SEND`, gives `RXDATA = v`; `presents` writes
down one such environment, whatever follows it. -/
def Obligations.LoopbackReproducesTheByte : Prop :=
  ∀ (v : Byte) (a : Bool) (s t : State), Ready s → LatchLow s → s.env.quietFor 28 →
    exec (.send v) s = .next t →
    let recorded := (eventBits (commandEvents (.send v) s)).take 8
    recorded = bitsMsbFirst v ∧
      (∀ e : Env, recvSamples e = recorded → ∃ u, exec (.recv a) { t with env := e } = .next u ∧ u.rxdata = v) ∧
      (∀ (low : EnvLow) (rest : List EnvLow) (n : Nat),
        recvSamples { low := low, answers := presents recorded ++ rest, moves := n } = recorded)

/-! ### Invariants of every step -/

/-- The sequencer's invariant (R18) is kept by every step. -/
def Obligations.StepKeepsSequencerInv : Prop :=
  ∀ s t : State, SequencerInv s → step s = .next t → SequencerInv t

/-- Under the sequencer's invariant a busy engine always has its next step: no command blocks (R91, R92). -/
def Obligations.BusyEngineNeverBlocks : Prop :=
  ∀ s : State, SequencerInv s → s.busy = true → ∃ t, engineStep s = .next t

/-- The open-drain invariant (R25) is kept by every step; where it holds, while a command runs too (but for a running
`INIT`), the engine drives neither line high. -/
def Obligations.StepKeepsOpenDrain : Prop :=
  (∀ s t : State, OpenDrainInv s → step s = .next t → OpenDrainInv t) ∧
  (∀ s : State, OpenDrainInv s → s.inited = true → s.viol = false → ¬(s.busy = true ∧ s.cmdr = encode .init) →
    ¬(s.dir.getLsbD s.cfg.sdaIdx = true ∧ s.out.getLsbD s.cfg.sdaIdx = true) ∧
    ¬(s.dir.getLsbD s.cfg.sclIdx = true ∧ s.out.getLsbD s.cfg.sclIdx = true))

/-- The rest state of the lines (R39): the invariant is kept by every step, and at a command boundary it says that the
clock is released and the data line held low exactly after `START` and after `RECV` with acknowledge. -/
def Obligations.StepKeepsRestState : Prop :=
  (∀ s t : State, RestInv s → step s = .next t → RestInv t) ∧
  (∀ s : State, RestInv s → s.inited = true → s.viol = false → s.busy = false →
    sclDriven s = false ∧ ∃ i, decode s.cmdr = .legal i ∧ (sdaDriven s = true ↔ i = .start ∨ i = .recv true))

/-- The memory stays in its canonical form and a transaction within its buffer, at every step; so the bytes that `EE_WRITE`
reads and `EE_READ` writes lie in the caller's buffer (R130, U21). -/
def Obligations.StepKeepsHostMemory : Prop :=
  (∀ s t : State, HostInv s → step s = .next t → HostInv t) ∧
  (∀ (s : State) (a : EeArgs) (k : Nat), HostInv s → s.task = some (.readData a k) ∨ s.task = some (.writeData a k) →
    a.buf.base + a.offset ≤ a.at k ∧ a.at k < a.buf.base + a.offset + a.length ∧ a.at k < a.buf.base + a.buf.size)

/-- While reset is asserted the engine's registers stay at their reset values (R151). -/
def Obligations.StepKeepsResetHeld : Prop :=
  ∀ s t : State, ResetHeld s → step s = .next t → ResetHeld t

/-- The configuration never changes (R8, R40). -/
def Obligations.StepKeepsConfiguration : Prop :=
  ∀ s t : State, step s = .next t → t.cfg = s.cfg

/-- The invariants hold right after reset, on every platform. -/
def Obligations.ResetMeetsTheInvariants : Prop :=
  ∀ c : Config, let s := State.resetOf c
    SequencerInv s ∧ OpenDrainInv s ∧ RestInv s ∧ HostInv s ∧ ResetHeld s ∧ Safe s

/-! ### Reset (70_reset_and_hazards.md) -/

/-- Asserting reset (R151, R152, R156, R158): every engine register and the ghost state at its reset value, and the port and
the environment unchanged; a `CMD` write while it is asserted is ignored; its release changes nothing but `rst`, so "at its
release" the registers still hold those values. That the host's memory is not reset is the model's choice (log 9). -/
def Obligations.AssertingResetClearsTheEngineOnly : Prop :=
  ∀ s : State, ∃ t, perform (.rst true) s = .next t ∧
    t.cmdr = 0x0000#16 ∧ t.sr = 0x00#8 ∧ t.upc = 0#5 ∧ t.busy = false ∧ t.ack = false ∧ t.rxdata = 0x00#8 ∧
    t.errIll = false ∧ t.errOvr = false ∧ t.inited = false ∧ t.frame = .closed ∧ t.viol = false ∧
    t.dir = s.dir ∧ t.out = s.out ∧ t.env = s.env ∧ t.mem = s.mem ∧
    (∀ w, writeCmd w t = t) ∧ (∀ i, t.cfg.wf = true → exec i t = .next t) ∧
    (∀ r : State, perform (.rst false) r = .next { r with rst := false }) ∧
    ∃ u, perform (.rst false) t = .next u ∧ u.rst = false ∧
      u.cmdr = 0x0000#16 ∧ u.sr = 0x00#8 ∧ u.upc = 0#5 ∧ u.busy = false ∧ u.ack = false ∧ u.rxdata = 0x00#8 ∧
      u.errIll = false ∧ u.errOvr = false ∧ u.dir = s.dir ∧ u.out = s.out

/-- The engine's registers and the ghost state right after reset (R41, R156), on every platform; `DIR` and `OUT` hold the
platform's `PORT_RESET_DIR` and `PORT_RESET_OUT` (R153). -/
def Obligations.StateRightAfterReset : Prop :=
  ∀ c : Config, let s := State.resetOf c
    s.cmdr = 0x0000#16 ∧ s.sr = 0x00#8 ∧ s.upc = 0#5 ∧ s.busy = false ∧ s.ack = false ∧ s.rxdata = 0x00#8 ∧
    s.errIll = false ∧ s.errOvr = false ∧ s.dir = c.portResetDir ∧ s.out = c.portResetOut ∧
    s.inited = false ∧ s.frame = .closed ∧ s.viol = false ∧ statusWord s = 0x0000#16

/-! ### The host registers and the step -/

/-- The host registers (R27, R29, R30): what each reads, that reads change nothing of the machine, that `STATUS` and
`RXDATA` ignore writes, and that other word addresses are not the engine's. -/
def Obligations.HostRegisters : Prop :=
  ∀ (s : State) (w : Word),
    let base := s.cfg.hostBase
    hostRead base s = .next { s with hostData := 0x0000#16 } ∧
    (∃ x : Word, hostRead (base + 1) s = .next { s with hostData := x } ∧
      x.getLsbD 0 = s.busy ∧ x.getLsbD 1 = s.ack ∧ x.getLsbD 2 = s.errIll ∧ x.getLsbD 3 = s.errOvr ∧
      x.extractLsb' 4 12 = 0#12) ∧
    (∃ x : Word, hostRead (base + 2) s = .next { s with hostData := x } ∧
      x.extractLsb' 0 8 = s.rxdata ∧ x.extractLsb' 8 8 = 0#8) ∧
    hostWrite base w s = .next (writeCmd w s) ∧
    hostWrite (base + 1) w s = .next s ∧ hostWrite (base + 2) w s = .next s ∧
    (∀ addr, addr < base ∨ base + 3 ≤ addr →
      hostRead addr s = .fault (.noHostRegister addr) ∧ hostWrite addr w s = .fault (.noHostRegister addr))

/-- A step runs the decoded command: when the host's next move is the call of a word that decodes to `i`, the step is
`exec i` with that move taken off the agenda; an illegal word is only written. -/
def Obligations.StepRunsTheDecodedCommand : Prop :=
  ∀ (s : State) (w : Word) (rest : List Move), s.cfg.wf = true → s.agenda = .call w :: rest →
    (∀ i, decode w = .legal i → i.wellFormed = true ∧ step s = exec i { s with agenda := rest }) ∧
    (∀ why, decode w = .illegal why → step s = .next (writeCmd w { s with agenda := rest }))

/-- With no move written down a busy engine takes its step, an idle machine without a transaction stays as it is (the
model's choice of schedule, log 11; R42, R91, R149). -/
def Obligations.StepWithAnEmptyAgenda : Prop :=
  ∀ s : State, s.cfg.wf = true → s.agenda = [] →
    (s.busy = true → step s = engineStep s) ∧
    (s.busy = false → s.task = none → step s = .next s)

/-- The co-user's accesses through the platform's register references (R8, R26, R38, R44): a write to `DIR` or `OUT` changes
the bits it writes only; writing one of the engine's bits, or touching the port while busy, sets `viol`; otherwise `viol`
and the engine's bits stay. A read changes `viol` only. A write to `IN`, and an access at a reference that names no port
register, fault in the model (log 24). -/
def Obligations.CouserWritesItsBitsOnly : Prop :=
  ∀ (s : State) (bits v : Port), s.cfg.wf = true →
    let t := couserWrite .dir bits v s
    let u := couserWrite .out bits v s
    perform (.couserWrite s.cfg.dirRef bits v) s = .next t ∧ perform (.couserWrite s.cfg.outRef bits v) s = .next u ∧
    perform (.couserWrite s.cfg.inRef bits v) s = .fault .inputReadOnly ∧
    (∀ r : PortReg, perform (.couserRead (portRef s.cfg r)) s = .next { s with viol := s.viol || s.busy }) ∧
    (∀ ref, (∀ r : PortReg, ref ≠ portRef s.cfg r) →
      perform (.couserRead ref) s = .fault (.noPortRegister ref) ∧
      perform (.couserWrite ref bits v) s = .fault (.noPortRegister ref)) ∧
    t = { s with dir := t.dir, viol := t.viol } ∧ u = { s with out := u.out, viol := u.viol } ∧
    (∀ q, q < 8 → t.dir.getLsbD q = (if bits.getLsbD q then v.getLsbD q else s.dir.getLsbD q) ∧
      u.out.getLsbD q = (if bits.getLsbD q then v.getLsbD q else s.out.getLsbD q)) ∧
    t.viol = u.viol ∧
    (t.viol = true ↔ s.viol = true ∨ s.busy = true ∨ bits.getLsbD s.cfg.sdaIdx = true ∨ bits.getLsbD s.cfg.sclIdx = true) ∧
    (t.viol = false → sdaDriven t = sdaDriven s ∧ sclDriven t = sclDriven s)

/-! ### The host's pseudo-instructions (43_host_sequences.md) -/

/-- The command of every line of `EE_WRITE` and `EE_READ` (the wait alone has none), and the order of the lines of their
addressing phases (R123, R125, R129): `WS`, the address high byte first; then for a write the first data byte, or `STOP`
at once when `length = 0` (R127, D24); for a read `STOP`, a fresh `START` and `RS = WS | 1`. -/
def Obligations.AddressingPhaseCommands : Prop :=
  ∀ (s : State) (a : EeArgs),
    eeCommand s (.writeStart a) = some .start ∧ eeCommand s (.writeSelect a) = some (.send s.cfg.ws) ∧
    eeCommand s (.writeAddrHi a) = some (.send (a.addr.extractLsb' 8 8)) ∧
    eeCommand s (.writeAddrLo a) = some (.send (a.addr.extractLsb' 0 8)) ∧
    (∀ k, eeCommand s (.writeData a k) = some (.send (Memory.read s.mem (a.buf.base + a.offset + k)))) ∧
    eeCommand s .writeStop = some .stop ∧ eeCommand s .pollWait = none ∧ eeCommand s .pollStart = some .start ∧
    eeCommand s .pollSelect = some (.send s.cfg.ws) ∧ eeCommand s .writeFinalStop = some .stop ∧
    eeCommand s (.readStart a) = some .start ∧ eeCommand s (.readSelect a) = some (.send s.cfg.ws) ∧
    eeCommand s (.readAddrHi a) = some (.send (a.addr.extractLsb' 8 8)) ∧
    eeCommand s (.readAddrLo a) = some (.send (a.addr.extractLsb' 0 8)) ∧
    eeCommand s (.readAddrStop a) = some .stop ∧ eeCommand s (.readRestart a) = some .start ∧
    eeCommand s (.readReselect a) = some (.send (s.cfg.ws ||| 1#8)) ∧
    (∀ k, eeCommand s (.readData a k) = some (.recv (decide (k + 1 < a.length)))) ∧
    eeCommand s .readFinalStop = some .stop ∧
    eeNext true (.writeStart a) = some (.writeSelect a) ∧ eeNext true (.writeSelect a) = some (.writeAddrHi a) ∧
    eeNext true (.writeAddrHi a) = some (.writeAddrLo a) ∧
    (0 < a.length → eeNext true (.writeAddrLo a) = some (.writeData a 0)) ∧
    (a.length = 0 → eeNext true (.writeAddrLo a) = some .writeStop) ∧
    eeNext true (.readStart a) = some (.readSelect a) ∧ eeNext true (.readSelect a) = some (.readAddrHi a) ∧
    eeNext true (.readAddrHi a) = some (.readAddrLo a) ∧
    eeNext true (.readAddrLo a) = some (.readAddrStop a) ∧ eeNext true (.readAddrStop a) = some (.readRestart a) ∧
    eeNext true (.readRestart a) = some (.readReselect a)

/-- The abort of the addressing phase (R126): when `WS` or an address byte is not acknowledged the operation returns at
once, with the frame still open and both lines released, and no further command is called. -/
def Obligations.AddressingAbortReturnsAtOnce : Prop :=
  ∀ (s : State) (a : EeArgs) (t : EeTask), Ready s → s.agenda = [] → s.task = some t → s.frame = .opened →
    t ∈ [EeTask.writeSelect a, .writeAddrHi a, .writeAddrLo a, .readSelect a, .readAddrHi a, .readAddrLo a] →
    (Env.after 28 s.env).low.sda = false →
    ∃ u, step s = .next u ∧ u.task = none ∧ u.frame = .opened ∧ u.ack = false ∧
      sclDriven u = false ∧ sdaDriven u = false ∧ u.mem = s.mem ∧ step u = .next u

/-- A not-acknowledged data byte ends the data loop, and the `STOP` and the busy-poll still follow (R127); so they do after
the last byte. -/
def Obligations.DataPhaseEndsInStop : Prop :=
  ∀ (s : State) (a : EeArgs) (k : Nat), Ready s → s.agenda = [] → s.task = some (.writeData a k) →
    ∃ u, step s = .next u ∧ u.cmdr = encode (.send (Memory.read s.mem (a.buf.base + a.offset + k))) ∧
      (u.ack = true → k + 1 < a.length → u.task = some (.writeData a (k + 1))) ∧
      (u.ack = false ∨ a.length ≤ k + 1 → u.task = some .writeStop ∧
        ∃ v, step u = .next v ∧ v.cmdr = encode .stop ∧ v.task = some .pollWait)

/-- The busy-poll (R128): wait, `START`, `SEND WS`; not acknowledged it begins again without a `STOP`, acknowledged one
`STOP` ends the operation. -/
def Obligations.BusyPollRepeatsUntilAcknowledged : Prop :=
  ∀ s : State, Ready s → s.agenda = [] → s.task = some .pollWait →
    ∃ u v w, step s = .next u ∧ u = { s with waits := s.waits + 1, task := some .pollStart } ∧
      step u = .next v ∧ v.cmdr = encode .start ∧ step v = .next w ∧ w.cmdr = encode (.send s.cfg.ws) ∧
      (w.ack = false → w.task = some .pollWait) ∧
      (w.ack = true → ∃ x, step w = .next x ∧ x.cmdr = encode .stop ∧ x.task = none)

/-- One byte of a burst read (R129, R130): every byte but the last is acknowledged, the byte received is stored at
`buf[offset + k]`, every other byte of memory reads as before, and after the last the final `STOP` follows. -/
def Obligations.BurstReadStoresOneByte : Prop :=
  ∀ (s : State) (a : EeArgs) (k : Nat), Ready s → MemInv s → s.agenda = [] → s.task = some (.readData a k) →
    ∃ u, step s = .next u ∧ u.cmdr = encode (.recv (decide (k + 1 < a.length))) ∧
      Memory.read u.mem (a.at k) = byteOfSamples (recvSamples s.env) ∧ u.rxdata = byteOfSamples (recvSamples s.env) ∧
      (∀ x, x ≠ a.at k → Memory.read u.mem x = Memory.read s.mem x) ∧
      (k + 1 < a.length → u.task = some (.readData a (k + 1)) ∧ sdaDriven u = true) ∧
      (a.length ≤ k + 1 → u.task = some .readFinalStop ∧ sdaDriven u = false)

/-- After `RS` (R129, D23): acknowledged and with bytes to read the burst begins; otherwise the final `STOP` is issued and
the operation returns, the memory unchanged. -/
def Obligations.ReadSelectDecidesTheBurst : Prop :=
  ∀ (s : State) (a : EeArgs), Ready s → s.agenda = [] → s.task = some (.readReselect a) →
    ∃ u, step s = .next u ∧ u.cmdr = encode (.send (s.cfg.ws ||| 1#8)) ∧ u.mem = s.mem ∧
      (u.ack = true → 0 < a.length → u.task = some (.readData a 0)) ∧
      (u.ack = false ∨ a.length = 0 → ∃ v, step u = .next v ∧ v.cmdr = encode .stop ∧ v.task = none ∧ v.mem = s.mem)

/-- Beginning a pseudo-instruction: `commit` is ignored (R132), a call beyond the buffer is refused (U21), a second
transaction is refused (R121, U7), and `PAGE_SIZE` is not tested (R131). -/
def Obligations.BeginningATransaction : Prop :=
  ∀ (s : State) (a : EeArgs) (c : Bool), s.cfg.hostWf = true →
    (a.offset + a.length ≤ a.buf.size → s.task = none →
      perform (.eeWrite a c) s = .next { s with task := some (.writeStart a) } ∧
      perform (.eeRead a) s = .next { s with task := some (.readStart a) }) ∧
    (a.buf.size < a.offset + a.length →
      perform (.eeWrite a c) s = .refused .bufferBounds ∧ perform (.eeRead a) s = .refused .bufferBounds) ∧
    (a.offset + a.length ≤ a.buf.size → (∃ t, s.task = some t) →
      perform (.eeWrite a c) s = .refused .interleavedTransaction ∧
      perform (.eeRead a) s = .refused .interleavedTransaction)
end

