-- ==== Sys2Proof/Laws/Memory.lean ====
section
/-! SUPPORT. The laws of the byte memory: read after write, and that a write keeps the canonical form. -/

namespace Sys2Proof.Machine

theorem Memory.wfFrom_mono {lo lo' : Nat} {m : Memory} (h : lo ≤ lo') (hm : Memory.wfFrom lo' m = true) :
    Memory.wfFrom lo m = true := by
  cases m with
  | nil => rfl
  | cons c m =>
    obtain ⟨a, b⟩ := c
    simp only [Memory.wfFrom, Bool.and_eq_true, decide_eq_true_eq] at hm ⊢
    exact ⟨⟨by omega, hm.1.2⟩, hm.2⟩

theorem Memory.read_below {lo x : Nat} {m : Memory} (hm : Memory.wfFrom lo m = true) (h : x < lo) :
    Memory.read m x = Memory.blank := by
  induction m generalizing lo with
  | nil => rfl
  | cons c m ih =>
    obtain ⟨a, b⟩ := c
    simp only [Memory.wfFrom, Bool.and_eq_true, decide_eq_true_eq] at hm
    have hne : x ≠ a := by omega
    simp only [Memory.read, hne, if_false]
    exact ih hm.2 (by omega)

/-- A write keeps the canonical form above any bound that the written address respects. -/
theorem Memory.wfFrom_write {lo x : Nat} {v : Byte} {m : Memory} (hm : Memory.wfFrom lo m = true) (h : lo ≤ x) :
    Memory.wfFrom lo (Memory.write m x v) = true := by
  induction m generalizing lo with
  | nil => by_cases hv : v = Memory.blank <;> simp [Memory.write, hv, Memory.wfFrom, h]
  | cons c m ih =>
    obtain ⟨a, b⟩ := c
    simp only [Memory.wfFrom, Bool.and_eq_true, decide_eq_true_eq] at hm
    obtain ⟨⟨hla, hb⟩, hm'⟩ := hm
    by_cases hxa : x < a
    · by_cases hv : v = Memory.blank
      · simp [Memory.write, hxa, hv, Memory.wfFrom, hla, hb, hm']
      · simp [Memory.write, hxa, hv, Memory.wfFrom, h, hb, hm', Nat.succ_le_of_lt hxa]
    · by_cases hea : x = a
      · by_cases hv : v = Memory.blank
        · simpa [Memory.write, hea, hv] using Memory.wfFrom_mono (by omega) hm'
        · simp [Memory.write, hea, hv, Memory.wfFrom, hla, hm']
      · simp [Memory.write, hxa, hea, Memory.wfFrom, hla, hb, ih hm' (by omega)]

/-- Every memory operation keeps the canonical form. -/
theorem Memory.wf_write {x : Nat} {v : Byte} {m : Memory} (hm : Memory.wf m = true) :
    Memory.wf (Memory.write m x v) = true :=
  Memory.wfFrom_write hm (Nat.zero_le x)

theorem Memory.read_write_of_wfFrom {lo x : Nat} {v : Byte} {m : Memory} (hm : Memory.wfFrom lo m = true) :
    Memory.read (Memory.write m x v) x = v := by
  induction m generalizing lo with
  | nil => by_cases hv : v = Memory.blank <;> simp [Memory.write, hv, Memory.read]
  | cons c m ih =>
    obtain ⟨a, b⟩ := c
    simp only [Memory.wfFrom, Bool.and_eq_true, decide_eq_true_eq] at hm
    by_cases hxa : x < a
    · have hne : x ≠ a := by omega
      by_cases hv : v = Memory.blank
      · simp [Memory.write, hxa, hv, Memory.read, hne, Memory.read_below hm.2 (show x < a + 1 by omega)]
      · simp [Memory.write, hxa, hv, Memory.read]
    · by_cases hea : x = a
      · by_cases hv : v = Memory.blank
        · simpa [Memory.write, hea, hv] using Memory.read_below hm.2 (show a < a + 1 by omega)
        · simp [Memory.write, hea, hv, Memory.read]
      · simp [Memory.write, hxa, hea, Memory.read, ih hm.2]

/-- A read after a write to the same address gives the value written. -/
theorem Memory.read_write_same {x : Nat} {v : Byte} {m : Memory} (hm : Memory.wf m = true) :
    Memory.read (Memory.write m x v) x = v :=
  Memory.read_write_of_wfFrom hm

/-- A write leaves every other address alone. -/
theorem Memory.read_write_other {x y : Nat} {v : Byte} {m : Memory} (h : y ≠ x) :
    Memory.read (Memory.write m x v) y = Memory.read m y := by
  induction m with
  | nil => by_cases hv : v = Memory.blank <;> simp [Memory.write, hv, Memory.read, h]
  | cons c m ih =>
    obtain ⟨a, b⟩ := c
    by_cases hxa : x < a
    · by_cases hv : v = Memory.blank <;> simp [Memory.write, hxa, hv, Memory.read, h]
    · by_cases hea : x = a
      · subst hea
        by_cases hv : v = Memory.blank <;> simp [Memory.write, hv, Memory.read, h]
      · simp [Memory.write, hxa, hea, Memory.read, ih]

end Sys2Proof.Machine
end

