-- ==== Sys2Proof/Laws/State.lean ====
section
/-! SUPPORT. What each field of the state is after each of the plain updates of Machine/Ops.lean. -/

namespace Sys2Proof.Machine

@[simp] theorem memWrite_dir_cfg (v : Port) (s : State) : (memWrite .dir v s).cfg = s.cfg := rfl
@[simp] theorem memWrite_dir_cmdr (v : Port) (s : State) : (memWrite .dir v s).cmdr = s.cmdr := rfl
@[simp] theorem memWrite_dir_sr (v : Port) (s : State) : (memWrite .dir v s).sr = s.sr := rfl
@[simp] theorem memWrite_dir_upc (v : Port) (s : State) : (memWrite .dir v s).upc = s.upc := rfl
@[simp] theorem memWrite_dir_busy (v : Port) (s : State) : (memWrite .dir v s).busy = s.busy := rfl
@[simp] theorem memWrite_dir_ack (v : Port) (s : State) : (memWrite .dir v s).ack = s.ack := rfl
@[simp] theorem memWrite_dir_rxdata (v : Port) (s : State) : (memWrite .dir v s).rxdata = s.rxdata := rfl
@[simp] theorem memWrite_dir_errIll (v : Port) (s : State) : (memWrite .dir v s).errIll = s.errIll := rfl
@[simp] theorem memWrite_dir_errOvr (v : Port) (s : State) : (memWrite .dir v s).errOvr = s.errOvr := rfl
@[simp] theorem memWrite_dir_ackbit (v : Port) (s : State) : (memWrite .dir v s).ackbit = s.ackbit := rfl
@[simp] theorem memWrite_dir_rst (v : Port) (s : State) : (memWrite .dir v s).rst = s.rst := rfl
@[simp] theorem memWrite_dir_dir (v : Port) (s : State) : (memWrite .dir v s).dir = v := rfl
@[simp] theorem memWrite_dir_out (v : Port) (s : State) : (memWrite .dir v s).out = s.out := rfl
@[simp] theorem memWrite_dir_env (v : Port) (s : State) : (memWrite .dir v s).env = s.env := rfl
@[simp] theorem memWrite_dir_inited (v : Port) (s : State) : (memWrite .dir v s).inited = s.inited := rfl
@[simp] theorem memWrite_dir_frame (v : Port) (s : State) : (memWrite .dir v s).frame = s.frame := rfl
@[simp] theorem memWrite_dir_viol (v : Port) (s : State) : (memWrite .dir v s).viol = s.viol := rfl
@[simp] theorem memWrite_dir_settles (v : Port) (s : State) : (memWrite .dir v s).settles = s.settles := rfl
@[simp] theorem memWrite_dir_waits (v : Port) (s : State) : (memWrite .dir v s).waits = s.waits := rfl
@[simp] theorem memWrite_dir_hostData (v : Port) (s : State) : (memWrite .dir v s).hostData = s.hostData := rfl
@[simp] theorem memWrite_dir_mem (v : Port) (s : State) : (memWrite .dir v s).mem = s.mem := rfl
@[simp] theorem memWrite_dir_task (v : Port) (s : State) : (memWrite .dir v s).task = s.task := rfl
@[simp] theorem memWrite_dir_agenda (v : Port) (s : State) : (memWrite .dir v s).agenda = s.agenda := rfl

@[simp] theorem memWrite_out_cfg (v : Port) (s : State) : (memWrite .out v s).cfg = s.cfg := rfl
@[simp] theorem memWrite_out_cmdr (v : Port) (s : State) : (memWrite .out v s).cmdr = s.cmdr := rfl
@[simp] theorem memWrite_out_sr (v : Port) (s : State) : (memWrite .out v s).sr = s.sr := rfl
@[simp] theorem memWrite_out_upc (v : Port) (s : State) : (memWrite .out v s).upc = s.upc := rfl
@[simp] theorem memWrite_out_busy (v : Port) (s : State) : (memWrite .out v s).busy = s.busy := rfl
@[simp] theorem memWrite_out_ack (v : Port) (s : State) : (memWrite .out v s).ack = s.ack := rfl
@[simp] theorem memWrite_out_rxdata (v : Port) (s : State) : (memWrite .out v s).rxdata = s.rxdata := rfl
@[simp] theorem memWrite_out_errIll (v : Port) (s : State) : (memWrite .out v s).errIll = s.errIll := rfl
@[simp] theorem memWrite_out_errOvr (v : Port) (s : State) : (memWrite .out v s).errOvr = s.errOvr := rfl
@[simp] theorem memWrite_out_ackbit (v : Port) (s : State) : (memWrite .out v s).ackbit = s.ackbit := rfl
@[simp] theorem memWrite_out_rst (v : Port) (s : State) : (memWrite .out v s).rst = s.rst := rfl
@[simp] theorem memWrite_out_dir (v : Port) (s : State) : (memWrite .out v s).dir = s.dir := rfl
@[simp] theorem memWrite_out_out (v : Port) (s : State) : (memWrite .out v s).out = v := rfl
@[simp] theorem memWrite_out_env (v : Port) (s : State) : (memWrite .out v s).env = s.env := rfl
@[simp] theorem memWrite_out_inited (v : Port) (s : State) : (memWrite .out v s).inited = s.inited := rfl
@[simp] theorem memWrite_out_frame (v : Port) (s : State) : (memWrite .out v s).frame = s.frame := rfl
@[simp] theorem memWrite_out_viol (v : Port) (s : State) : (memWrite .out v s).viol = s.viol := rfl
@[simp] theorem memWrite_out_settles (v : Port) (s : State) : (memWrite .out v s).settles = s.settles := rfl
@[simp] theorem memWrite_out_waits (v : Port) (s : State) : (memWrite .out v s).waits = s.waits := rfl
@[simp] theorem memWrite_out_hostData (v : Port) (s : State) : (memWrite .out v s).hostData = s.hostData := rfl
@[simp] theorem memWrite_out_mem (v : Port) (s : State) : (memWrite .out v s).mem = s.mem := rfl
@[simp] theorem memWrite_out_task (v : Port) (s : State) : (memWrite .out v s).task = s.task := rfl
@[simp] theorem memWrite_out_agenda (v : Port) (s : State) : (memWrite .out v s).agenda = s.agenda := rfl

@[simp] theorem settle_cfg (s : State) : (settle s).cfg = s.cfg := rfl
@[simp] theorem settle_cmdr (s : State) : (settle s).cmdr = s.cmdr := rfl
@[simp] theorem settle_sr (s : State) : (settle s).sr = s.sr := rfl
@[simp] theorem settle_upc (s : State) : (settle s).upc = s.upc := rfl
@[simp] theorem settle_busy (s : State) : (settle s).busy = s.busy := rfl
@[simp] theorem settle_ack (s : State) : (settle s).ack = s.ack := rfl
@[simp] theorem settle_rxdata (s : State) : (settle s).rxdata = s.rxdata := rfl
@[simp] theorem settle_errIll (s : State) : (settle s).errIll = s.errIll := rfl
@[simp] theorem settle_errOvr (s : State) : (settle s).errOvr = s.errOvr := rfl
@[simp] theorem settle_ackbit (s : State) : (settle s).ackbit = s.ackbit := rfl
@[simp] theorem settle_rst (s : State) : (settle s).rst = s.rst := rfl
@[simp] theorem settle_dir (s : State) : (settle s).dir = s.dir := rfl
@[simp] theorem settle_out (s : State) : (settle s).out = s.out := rfl
@[simp] theorem settle_env (s : State) : (settle s).env = s.env := rfl
@[simp] theorem settle_inited (s : State) : (settle s).inited = s.inited := rfl
@[simp] theorem settle_frame (s : State) : (settle s).frame = s.frame := rfl
@[simp] theorem settle_viol (s : State) : (settle s).viol = s.viol := rfl
@[simp] theorem settle_settles (s : State) : (settle s).settles = s.settles + 1 := rfl
@[simp] theorem settle_waits (s : State) : (settle s).waits = s.waits := rfl
@[simp] theorem settle_hostData (s : State) : (settle s).hostData = s.hostData := rfl
@[simp] theorem settle_mem (s : State) : (settle s).mem = s.mem := rfl
@[simp] theorem settle_task (s : State) : (settle s).task = s.task := rfl
@[simp] theorem settle_agenda (s : State) : (settle s).agenda = s.agenda := rfl

@[simp] theorem envMove_cfg (s : State) : (envMove s).cfg = s.cfg := rfl
@[simp] theorem envMove_cmdr (s : State) : (envMove s).cmdr = s.cmdr := rfl
@[simp] theorem envMove_sr (s : State) : (envMove s).sr = s.sr := rfl
@[simp] theorem envMove_upc (s : State) : (envMove s).upc = s.upc := rfl
@[simp] theorem envMove_busy (s : State) : (envMove s).busy = s.busy := rfl
@[simp] theorem envMove_ack (s : State) : (envMove s).ack = s.ack := rfl
@[simp] theorem envMove_rxdata (s : State) : (envMove s).rxdata = s.rxdata := rfl
@[simp] theorem envMove_errIll (s : State) : (envMove s).errIll = s.errIll := rfl
@[simp] theorem envMove_errOvr (s : State) : (envMove s).errOvr = s.errOvr := rfl
@[simp] theorem envMove_ackbit (s : State) : (envMove s).ackbit = s.ackbit := rfl
@[simp] theorem envMove_rst (s : State) : (envMove s).rst = s.rst := rfl
@[simp] theorem envMove_dir (s : State) : (envMove s).dir = s.dir := rfl
@[simp] theorem envMove_out (s : State) : (envMove s).out = s.out := rfl
@[simp] theorem envMove_env (s : State) : (envMove s).env = s.env.advance := rfl
@[simp] theorem envMove_inited (s : State) : (envMove s).inited = s.inited := rfl
@[simp] theorem envMove_frame (s : State) : (envMove s).frame = s.frame := rfl
@[simp] theorem envMove_viol (s : State) : (envMove s).viol = s.viol := rfl
@[simp] theorem envMove_settles (s : State) : (envMove s).settles = s.settles := rfl
@[simp] theorem envMove_waits (s : State) : (envMove s).waits = s.waits := rfl
@[simp] theorem envMove_hostData (s : State) : (envMove s).hostData = s.hostData := rfl
@[simp] theorem envMove_mem (s : State) : (envMove s).mem = s.mem := rfl
@[simp] theorem envMove_task (s : State) : (envMove s).task = s.task := rfl
@[simp] theorem envMove_agenda (s : State) : (envMove s).agenda = s.agenda := rfl

@[simp] theorem raise_illegalCmd_cfg (s : State) : (raise .illegalCmd s).cfg = s.cfg := rfl
@[simp] theorem raise_illegalCmd_cmdr (s : State) : (raise .illegalCmd s).cmdr = s.cmdr := rfl
@[simp] theorem raise_illegalCmd_sr (s : State) : (raise .illegalCmd s).sr = s.sr := rfl
@[simp] theorem raise_illegalCmd_upc (s : State) : (raise .illegalCmd s).upc = s.upc := rfl
@[simp] theorem raise_illegalCmd_busy (s : State) : (raise .illegalCmd s).busy = s.busy := rfl
@[simp] theorem raise_illegalCmd_ack (s : State) : (raise .illegalCmd s).ack = s.ack := rfl
@[simp] theorem raise_illegalCmd_rxdata (s : State) : (raise .illegalCmd s).rxdata = s.rxdata := rfl
@[simp] theorem raise_illegalCmd_errIll (s : State) : (raise .illegalCmd s).errIll = true := rfl
@[simp] theorem raise_illegalCmd_errOvr (s : State) : (raise .illegalCmd s).errOvr = s.errOvr := rfl
@[simp] theorem raise_illegalCmd_ackbit (s : State) : (raise .illegalCmd s).ackbit = s.ackbit := rfl
@[simp] theorem raise_illegalCmd_rst (s : State) : (raise .illegalCmd s).rst = s.rst := rfl
@[simp] theorem raise_illegalCmd_dir (s : State) : (raise .illegalCmd s).dir = s.dir := rfl
@[simp] theorem raise_illegalCmd_out (s : State) : (raise .illegalCmd s).out = s.out := rfl
@[simp] theorem raise_illegalCmd_env (s : State) : (raise .illegalCmd s).env = s.env := rfl
@[simp] theorem raise_illegalCmd_inited (s : State) : (raise .illegalCmd s).inited = s.inited := rfl
@[simp] theorem raise_illegalCmd_frame (s : State) : (raise .illegalCmd s).frame = s.frame := rfl
@[simp] theorem raise_illegalCmd_viol (s : State) : (raise .illegalCmd s).viol = s.viol := rfl
@[simp] theorem raise_illegalCmd_settles (s : State) : (raise .illegalCmd s).settles = s.settles := rfl
@[simp] theorem raise_illegalCmd_waits (s : State) : (raise .illegalCmd s).waits = s.waits := rfl
@[simp] theorem raise_illegalCmd_hostData (s : State) : (raise .illegalCmd s).hostData = s.hostData := rfl
@[simp] theorem raise_illegalCmd_mem (s : State) : (raise .illegalCmd s).mem = s.mem := rfl
@[simp] theorem raise_illegalCmd_task (s : State) : (raise .illegalCmd s).task = s.task := rfl
@[simp] theorem raise_illegalCmd_agenda (s : State) : (raise .illegalCmd s).agenda = s.agenda := rfl

@[simp] theorem raise_cmdOverrun_cfg (s : State) : (raise .cmdOverrun s).cfg = s.cfg := rfl
@[simp] theorem raise_cmdOverrun_cmdr (s : State) : (raise .cmdOverrun s).cmdr = s.cmdr := rfl
@[simp] theorem raise_cmdOverrun_sr (s : State) : (raise .cmdOverrun s).sr = s.sr := rfl
@[simp] theorem raise_cmdOverrun_upc (s : State) : (raise .cmdOverrun s).upc = s.upc := rfl
@[simp] theorem raise_cmdOverrun_busy (s : State) : (raise .cmdOverrun s).busy = s.busy := rfl
@[simp] theorem raise_cmdOverrun_ack (s : State) : (raise .cmdOverrun s).ack = s.ack := rfl
@[simp] theorem raise_cmdOverrun_rxdata (s : State) : (raise .cmdOverrun s).rxdata = s.rxdata := rfl
@[simp] theorem raise_cmdOverrun_errIll (s : State) : (raise .cmdOverrun s).errIll = s.errIll := rfl
@[simp] theorem raise_cmdOverrun_errOvr (s : State) : (raise .cmdOverrun s).errOvr = true := rfl
@[simp] theorem raise_cmdOverrun_ackbit (s : State) : (raise .cmdOverrun s).ackbit = s.ackbit := rfl
@[simp] theorem raise_cmdOverrun_rst (s : State) : (raise .cmdOverrun s).rst = s.rst := rfl
@[simp] theorem raise_cmdOverrun_dir (s : State) : (raise .cmdOverrun s).dir = s.dir := rfl
@[simp] theorem raise_cmdOverrun_out (s : State) : (raise .cmdOverrun s).out = s.out := rfl
@[simp] theorem raise_cmdOverrun_env (s : State) : (raise .cmdOverrun s).env = s.env := rfl
@[simp] theorem raise_cmdOverrun_inited (s : State) : (raise .cmdOverrun s).inited = s.inited := rfl
@[simp] theorem raise_cmdOverrun_frame (s : State) : (raise .cmdOverrun s).frame = s.frame := rfl
@[simp] theorem raise_cmdOverrun_viol (s : State) : (raise .cmdOverrun s).viol = s.viol := rfl
@[simp] theorem raise_cmdOverrun_settles (s : State) : (raise .cmdOverrun s).settles = s.settles := rfl
@[simp] theorem raise_cmdOverrun_waits (s : State) : (raise .cmdOverrun s).waits = s.waits := rfl
@[simp] theorem raise_cmdOverrun_hostData (s : State) : (raise .cmdOverrun s).hostData = s.hostData := rfl
@[simp] theorem raise_cmdOverrun_mem (s : State) : (raise .cmdOverrun s).mem = s.mem := rfl
@[simp] theorem raise_cmdOverrun_task (s : State) : (raise .cmdOverrun s).task = s.task := rfl
@[simp] theorem raise_cmdOverrun_agenda (s : State) : (raise .cmdOverrun s).agenda = s.agenda := rfl

end Sys2Proof.Machine
end

