-- ==== Sys2Proof/Laws/Ops.lean ====
section
/-! SUPPORT. What the port primitives, the environment's moves and the micro-operations do, said once. -/

namespace Sys2Proof.Machine

/-! ### Bits of a port register -/

theorem getLsbD_bit (p q : Nat) : (bit p).getLsbD q = (decide (q < 8) && decide (p = q)) := by
  simp only [bit, BitVec.getLsbD_shiftLeft, BitVec.getLsbD_one]
  by_cases hq : q < 8 <;> by_cases hpq : p = q <;> simp [hq, hpq]; omega

theorem getLsbD_clr_same (v : Port) (p : Nat) : (v &&& ~~~bit p).getLsbD p = false := by
  by_cases hp : p < 8 <;> simp [getLsbD_bit, hp]

theorem getLsbD_set_same (v : Port) {p : Nat} (h : p < 8) : (v ||| bit p).getLsbD p = true := by
  simp [getLsbD_bit, h]

theorem getLsbD_clr_other (v : Port) {p q : Nat} (h : p ≠ q) : (v &&& ~~~bit p).getLsbD q = v.getLsbD q := by
  by_cases hq : q < 8
  · rw [BitVec.getLsbD_and, BitVec.getLsbD_not, getLsbD_bit]
    simp [h, hq]
  · rw [BitVec.getLsbD_of_ge _ _ (Nat.le_of_not_lt hq), BitVec.getLsbD_of_ge _ _ (Nat.le_of_not_lt hq)]

theorem getLsbD_set_other (v : Port) {p q : Nat} (h : p ≠ q) : (v ||| bit p).getLsbD q = v.getLsbD q := by
  simp [getLsbD_bit, h]

/-! ### The port primitives as record updates (R48) -/

theorem portSet_dir (m : Port) (s : State) : portSet .dir m s = { s with dir := s.dir ||| m } := rfl
theorem portClr_dir (m : Port) (s : State) : portClr .dir m s = { s with dir := s.dir &&& ~~~m } := rfl
theorem portSet_out (m : Port) (s : State) : portSet .out m s = { s with out := s.out ||| m } := rfl
theorem portClr_out (m : Port) (s : State) : portClr .out m s = { s with out := s.out &&& ~~~m } := rfl

/-! ### Configuration bounds and the register references (R8, R44) -/

theorem Config.wf_iff (c : Config) :
    c.wf = true ↔ c.sdaIdx < 8 ∧ c.sclIdx < 8 ∧ c.sdaIdx ≠ c.sclIdx ∧ 0 < c.settle ∧
      c.dirRef ≠ c.outRef ∧ c.dirRef ≠ c.inRef ∧ c.outRef ≠ c.inRef := by
  simp [Config.wf, Config.refsDistinct, and_assoc]

/-- Under distinct references each register is the one its own reference names. -/
theorem portReg_portRef {c : Config} (h : c.wf = true) (r : PortReg) : portReg c (portRef c r) = some r := by
  obtain ⟨-, -, -, -, h1, h2, h3⟩ := (Config.wf_iff c).1 h
  cases r with
  | dir => exact if_pos rfl
  | out => rw [portRef, portReg, if_neg h1.symm, if_pos rfl]
  | input => rw [portRef, portReg, if_neg h2.symm, if_neg h3.symm, if_pos rfl]

/-- A reference names a register only if it is that register's own. -/
theorem portReg_eq_some {c : Config} {ref : Nat} {r : PortReg} (h : portReg c ref = some r) : ref = portRef c r := by
  unfold portReg at h
  split at h
  · cases h; assumption
  · split at h
    · cases h; assumption
    · split at h
      · cases h; assumption
      · cases h

/-! ### Line levels (R34) -/

/-- A pin driven with its latch bit 0 is low. -/
theorem level_drivenLow {s : State} {p : Nat} (hd : s.dir.getLsbD p = true) (ho : s.out.getLsbD p = false) :
    level s p = false := by
  rw [level, if_pos hd, if_neg (by rw [ho]; exact Bool.false_ne_true)]

/-- A released pin is high unless the environment pulls it. -/
theorem level_released {s : State} {p : Nat} (hd : s.dir.getLsbD p = false) : level s p = !envLow s p := by
  rw [level, if_neg (by rw [hd]; exact Bool.false_ne_true)]

/-- A pin driven with its latch bit 1 and not pulled is high; pulled, it is contended and left open. -/
theorem level_drivenHigh {s : State} {p : Nat} (hd : s.dir.getLsbD p = true) (ho : s.out.getLsbD p = true)
    (he : envLow s p = false) : level s p = true := by
  rw [level, if_pos hd, if_pos ho, if_neg (by rw [he]; exact Bool.false_ne_true)]

@[simp] theorem envLow_sda (s : State) : envLow s s.cfg.sdaIdx = s.env.low.sda := by rw [envLow, if_pos rfl]

theorem envLow_scl (s : State) (h : s.cfg.sdaIdx ≠ s.cfg.sclIdx) : envLow s s.cfg.sclIdx = s.env.low.scl := by
  rw [envLow, if_neg (Ne.symm h), if_pos rfl]

/-! ### Samples (R24, R35) -/

theorem foldl_or_bits_getLsbD (f : Nat → Bool) (q : Nat) (hq : q < 8) (l : List Nat) (v : Port) :
    (l.foldl (fun v p => if f p then v ||| bit p else v) v).getLsbD q =
      (v.getLsbD q || (decide (q ∈ l) && f q)) := by
  induction l generalizing v with
  | nil => simp
  | cons p l ih =>
    rw [List.foldl_cons, ih]
    by_cases hpq : q = p
    · subst hpq
      cases hf : f q <;> simp [getLsbD_bit, hq]
    · cases hf : f p <;> simp [hpq, getLsbD_bit, Ne.symm hpq]

/-- Bit `p` of `IN` is the level of pin `p` (R24). -/
theorem inputValue_getLsbD (s : State) {p : Nat} (h : p < 8) : (inputValue s).getLsbD p = level s p := by
  unfold inputValue
  rw [foldl_or_bits_getLsbD (level s) p h]
  simp [h]

/-- One bit of a register read is that bit of the whole value read (R46). -/
theorem memReadBit_eq (r : PortReg) (s : State) {p : Nat} (h : p < 8) : memReadBit r p s = (memRead r s).getLsbD p := by
  cases r with
  | input => exact (inputValue_getLsbD s h).symm
  | _ => rfl

/-- A sample of the data line is its level (R35). -/
theorem sampleSda_eq_level (s : State) : sampleSda s = level s s.cfg.sdaIdx := rfl

/-- While the engine releases the data line a sample is the environment's answer alone (R86). -/
theorem sampleSda_released (s : State) (hd : sdaDriven s = false) : sampleSda s = !s.env.low.sda := by
  rw [sampleSda_eq_level, level_released hd, envLow_sda]

/-- Bit `k` after a sample is shifted in: the sample at bit 0, else the bit that was one place lower (R117). -/
theorem shiftIn_getLsbD (v : Byte) (b : Bool) {k : Nat} (hk : k < 8) :
    (shiftIn v b).getLsbD k = if k = 0 then b else v.getLsbD (k - 1) := by
  rw [shiftIn, shiftLeft1, BitVec.getLsbD_or, BitVec.getLsbD_shiftLeft]
  rcases Nat.eq_zero_or_pos k with rfl | h0
  · cases b <;> rfl
  · have h1 : k ≠ 0 := by omega
    cases b <;> simp [hk, h1]

/-! ### The environment -/

@[simp] theorem Env.after_zero (e : Env) : Env.after 0 e = e := rfl
@[simp] theorem Env.after_succ (n : Nat) (e : Env) : Env.after (n + 1) e = Env.after n e.advance := rfl

theorem Env.after_add (m n : Nat) (e : Env) : Env.after (m + n) e = Env.after n (Env.after m e) := by
  induction m generalizing e with
  | zero => simp
  | succ m ih => rw [Nat.succ_add, Env.after_succ, Env.after_succ, ih]

@[simp] theorem Env.advance_cons (l a : EnvLow) (as : List EnvLow) (n : Nat) :
    Env.advance { low := l, answers := a :: as, moves := n } = { low := a, answers := as, moves := n + 1 } := rfl

/-! ### One micro-operation (R80 to R89): everything it changes -/

theorem opCL_eq (s : State) : opCL s = { s with dir := s.dir ||| sclBit s, settles := s.settles + 1 } := rfl
theorem opCR_eq (s : State) : opCR s = { s with dir := s.dir &&& ~~~sclBit s, settles := s.settles + 1 } := rfl
theorem opDL_eq (s : State) : opDL s = { s with dir := s.dir ||| sdaBit s, settles := s.settles + 1 } := rfl
theorem opDR_eq (s : State) : opDR s = { s with dir := s.dir &&& ~~~sdaBit s, settles := s.settles + 1 } := rfl
theorem opIR_eq (s : State) :
    opIR s = { s with dir := s.dir &&& ~~~(sdaBit s ||| sclBit s), settles := s.settles + 1 } := rfl
theorem opOC_eq (s : State) : opOC s = { s with out := s.out &&& ~~~(sdaBit s ||| sclBit s) } := rfl

theorem opDS_eq (s : State) :
    opDS s =
      { s with
        dir := if srTop s then s.dir &&& ~~~sdaBit s else s.dir ||| sdaBit s
        sr := shiftLeft1 s.sr, settles := s.settles + 1 } := by
  simp only [opDS]
  split <;> rfl

theorem opDA_eq (s : State) :
    opDA s =
      { s with
        dir := if ackOperand s then s.dir ||| sdaBit s else s.dir
        settles := if ackOperand s then s.settles + 1 else s.settles } := by
  simp only [opDA]
  split <;> rfl

/-- A micro-operation writes `DIR`, `OUT`, `SR`, `ackbit` and the count of delays, nothing else. -/
theorem execMicro_frame (m : MicroOp) (s : State) :
    execMicro m s =
      { s with
        dir := (execMicro m s).dir, out := (execMicro m s).out, sr := (execMicro m s).sr,
        ackbit := (execMicro m s).ackbit, settles := (execMicro m s).settles } := by
  cases m with
  | DS => simp only [execMicro, opDS_eq]
  | DA => simp only [execMicro, opDA_eq]
  | _ => rfl

/-- A tick writes what the micro-operation writes and moves the environment once. -/
theorem tick_frame (m : MicroOp) (s : State) :
    tick m s =
      { s with
        dir := (tick m s).dir, out := (tick m s).out, sr := (tick m s).sr, ackbit := (tick m s).ackbit,
        settles := (tick m s).settles, env := s.env.advance } := by
  rw [tick, execMicro_frame]
  rfl

/-- Only `OC` writes `OUT` (R89). -/
theorem tick_out (m : MicroOp) (s : State) (h : m ≠ .OC) : (tick m s).out = s.out := by
  cases m with
  | OC => exact absurd rfl h
  | DS => rw [tick, execMicro, opDS_eq]; rfl
  | DA => rw [tick, execMicro, opDA_eq]; rfl
  | _ => rfl

/-- A micro-operation neither reads nor writes `UPC`. -/
theorem tick_upc (m : MicroOp) (u : BitVec 5) (s : State) : tick m { s with upc := u } = { tick m s with upc := u } := by
  cases m with
  | DS => simp only [tick, execMicro, opDS_eq]; rfl
  | DA => simp only [tick, execMicro, opDA_eq]; rfl
  | _ => rfl

/-- A list of micro-operations writes what its members write and moves the environment once for each. -/
theorem runOps_frame (ms : List MicroOp) (s : State) :
    runOps ms s =
      { s with
        dir := (runOps ms s).dir, out := (runOps ms s).out, sr := (runOps ms s).sr,
        ackbit := (runOps ms s).ackbit, settles := (runOps ms s).settles, env := s.env.after ms.length } := by
  induction ms generalizing s with
  | nil => rfl
  | cons m ms ih =>
    rw [runOps, ih, tick_frame]
    rfl

theorem runOps_append (xs ys : List MicroOp) (s : State) : runOps (xs ++ ys) s = runOps ys (runOps xs s) := by
  induction xs generalizing s with
  | nil => rfl
  | cons x xs ih => exact ih (tick x s)

end Sys2Proof.Machine
end

