-- ==== Sys2Proof/Laws/PerInstr.lean ====
section
/-! SUPPORT. One fact about every command as it is written: its word lies in its row of the opcode map (R67) and its
operand byte is one its format admits (R65). -/

namespace Sys2Proof.Laws.TableRow

/-- The command's word is selected by the command's own row, carries its operand byte, and is well formed. -/
def Statement (i : Instr) : Prop :=
  rowSelects i (encode i) = true ∧ argField (encode i) = i.arg ∧ i.wellFormed = true

theorem init : Statement .init := by refine ⟨?_, ?_, ?_⟩ <;> decide

theorem start : Statement .start := by refine ⟨?_, ?_, ?_⟩ <;> decide

theorem stop : Statement .stop := by refine ⟨?_, ?_, ?_⟩ <;> decide

theorem send (value : Byte) : Statement (.send value) := by
  refine ⟨?_, ?_, rfl⟩
  · simp only [rowSelects, rowMask, rowMatch, encode, beq_iff_eq]
    apply BitVec.eq_of_getLsbD_eq
    intro k hk
    interval_cases k <;> simp
  · simp only [argField, encode, Instr.arg]
    apply BitVec.eq_of_getLsbD_eq
    intro k hk
    interval_cases k <;> simp

theorem recv (ack : Bool) : Statement (.recv ack) := by
  refine ⟨?_, ?_, ?_⟩ <;> cases ack <;> decide

end Sys2Proof.Laws.TableRow
end

