-- ==== Sys2Proof/Laws/Sequencer.lean ====
section
/-! SUPPORT. What a list of micro-operations does to each part of the state, what a command and an engine step answer. -/

namespace Sys2Proof.Machine

/-! ### One tick -/

@[simp] theorem tick_cfg (m : MicroOp) (s : State) : (tick m s).cfg = s.cfg := by rw [tick_frame]
@[simp] theorem tick_cmdr (m : MicroOp) (s : State) : (tick m s).cmdr = s.cmdr := by rw [tick_frame]
@[simp] theorem tick_env (m : MicroOp) (s : State) : (tick m s).env = s.env.advance := by rw [tick_frame]

/-- What a tick does to the data bit of `DIR`, given the bit it was. -/
def dataBit (m : MicroOp) (s : State) : Bool :=
  match m with
  | .DL => true
  | .DR => false
  | .DS => !srTop s
  | .DA => ackOperand s || sdaDriven s
  | .IR => false
  | .CL => sdaDriven s
  | .CR => sdaDriven s
  | .SMA => sdaDriven s
  | .SMD => sdaDriven s
  | .OC => sdaDriven s

/-- A tick's effect on `DIR[SDA_IDX]`. -/
theorem sdaDriven_tick (m : MicroOp) (s : State) (h : s.cfg.wf = true) :
    sdaDriven (tick m s) = dataBit m s := by
  obtain ⟨h1, h2, h3, -⟩ := (Config.wf_iff _).1 h
  have e1 := getLsbD_set_same s.dir h1
  have e2 := getLsbD_clr_same s.dir s.cfg.sdaIdx
  have e3 := getLsbD_set_other s.dir (Ne.symm h3)
  have e4 := getLsbD_clr_other s.dir (Ne.symm h3)
  cases m with
  | CL => exact e3
  | CR => exact e4
  | DL => exact e1
  | DR => exact e2
  | DS =>
    rw [tick, execMicro, opDS_eq]
    show (if srTop s then s.dir &&& ~~~bit s.cfg.sdaIdx else s.dir ||| bit s.cfg.sdaIdx).getLsbD s.cfg.sdaIdx = !srTop s
    cases srTop s
    · exact e1
    · exact e2
  | DA =>
    rw [tick, execMicro, opDA_eq]
    show (if ackOperand s then s.dir ||| bit s.cfg.sdaIdx else s.dir).getLsbD s.cfg.sdaIdx = (ackOperand s || sdaDriven s)
    cases ackOperand s
    · rfl
    · exact e1
  | SMA => rfl
  | SMD => rfl
  | OC => rfl
  | IR =>
    show (s.dir &&& ~~~(bit s.cfg.sdaIdx ||| bit s.cfg.sclIdx)).getLsbD s.cfg.sdaIdx = false
    rw [BitVec.getLsbD_and, BitVec.getLsbD_not, BitVec.getLsbD_or, getLsbD_bit]
    simp [h1]

/-- A tick's effect on `DIR[SCL_IDX]`. -/
theorem sclDriven_tick (m : MicroOp) (s : State) (h : s.cfg.wf = true) :
    sclDriven (tick m s) = clockAfter [m] (sclDriven s) := by
  obtain ⟨h1, h2, h3, -⟩ := (Config.wf_iff _).1 h
  have e1 := getLsbD_set_same s.dir h2
  have e2 := getLsbD_clr_same s.dir s.cfg.sclIdx
  have e3 := getLsbD_set_other s.dir h3
  have e4 := getLsbD_clr_other s.dir h3
  cases m with
  | CL => exact e1
  | CR => exact e2
  | DL => exact e3
  | DR => exact e4
  | DS =>
    rw [tick, execMicro, opDS_eq]
    show (if srTop s then s.dir &&& ~~~bit s.cfg.sdaIdx else s.dir ||| bit s.cfg.sdaIdx).getLsbD s.cfg.sclIdx = sclDriven s
    split
    · exact e4
    · exact e3
  | DA =>
    rw [tick, execMicro, opDA_eq]
    show (if ackOperand s then s.dir ||| bit s.cfg.sdaIdx else s.dir).getLsbD s.cfg.sclIdx = sclDriven s
    split
    · exact e3
    · rfl
  | SMA => rfl
  | SMD => rfl
  | OC => rfl
  | IR =>
    show (s.dir &&& ~~~(bit s.cfg.sdaIdx ||| bit s.cfg.sclIdx)).getLsbD s.cfg.sclIdx = false
    rw [BitVec.getLsbD_and, BitVec.getLsbD_not, BitVec.getLsbD_or, getLsbD_bit, getLsbD_bit]
    simp [h2]

/-- A tick leaves every bit of `DIR` that is neither line's (R26). -/
theorem dir_tick_other (m : MicroOp) (s : State) {q : Nat} (h1 : q ≠ s.cfg.sdaIdx) (h2 : q ≠ s.cfg.sclIdx) :
    (tick m s).dir.getLsbD q = s.dir.getLsbD q := by
  have e1 := getLsbD_set_other s.dir (Ne.symm h1)
  have e2 := getLsbD_clr_other s.dir (Ne.symm h1)
  have e3 := getLsbD_set_other s.dir (Ne.symm h2)
  have e4 := getLsbD_clr_other s.dir (Ne.symm h2)
  cases m with
  | CL => exact e3
  | CR => exact e4
  | DL => exact e1
  | DR => exact e2
  | DS =>
    rw [tick, execMicro, opDS_eq]
    show (if srTop s then s.dir &&& ~~~bit s.cfg.sdaIdx else s.dir ||| bit s.cfg.sdaIdx).getLsbD q = _
    split
    · exact e2
    · exact e1
  | DA =>
    rw [tick, execMicro, opDA_eq]
    show (if ackOperand s then s.dir ||| bit s.cfg.sdaIdx else s.dir).getLsbD q = _
    split
    · exact e1
    · rfl
  | SMA => rfl
  | SMD => rfl
  | OC => rfl
  | IR =>
    show (s.dir &&& ~~~(bit s.cfg.sdaIdx ||| bit s.cfg.sclIdx)).getLsbD q = _
    by_cases hq : q < 8
    · rw [BitVec.getLsbD_and, BitVec.getLsbD_not, BitVec.getLsbD_or, getLsbD_bit, getLsbD_bit]
      simp [Ne.symm h1, Ne.symm h2, hq]
    · rw [BitVec.getLsbD_of_ge _ _ (Nat.le_of_not_lt hq), BitVec.getLsbD_of_ge _ _ (Nat.le_of_not_lt hq)]

/-- A tick's effect on the count of settle delays (R90). -/
theorem settles_tick (m : MicroOp) (s : State) : (tick m s).settles = s.settles + settlesOf (ackOperand s) m := by
  cases m with
  | DS => rw [tick, execMicro, opDS_eq]; rfl
  | DA =>
    rw [tick, execMicro, opDA_eq]
    show (if ackOperand s then s.settles + 1 else s.settles) = s.settles + settlesOf (ackOperand s) .DA
    cases ackOperand s <;> rfl
  | _ => rfl

/-! ### Lists of micro-operations -/

@[simp] theorem runOps_cfg (ms : List MicroOp) (s : State) : (runOps ms s).cfg = s.cfg := by rw [runOps_frame]
@[simp] theorem runOps_cmdr (ms : List MicroOp) (s : State) : (runOps ms s).cmdr = s.cmdr := by rw [runOps_frame]
@[simp] theorem runOps_env (ms : List MicroOp) (s : State) : (runOps ms s).env = s.env.after ms.length := by
  rw [runOps_frame]

theorem clockAfter_cons (m : MicroOp) (ms : List MicroOp) (b : Bool) :
    clockAfter (m :: ms) b = clockAfter ms (clockAfter [m] b) := by
  cases m <;> rfl

/-- A list's effect on `DIR[SCL_IDX]`. -/
theorem sclDriven_runOps (ms : List MicroOp) (s : State) (h : s.cfg.wf = true) :
    sclDriven (runOps ms s) = clockAfter ms (sclDriven s) := by
  induction ms generalizing s with
  | nil => rfl
  | cons m ms ih => rw [runOps, ih _ (by simpa using h), sclDriven_tick _ _ h, ← clockAfter_cons]

/-- A list's effect on `DIR[SDA_IDX]`, for a list without `DS`. -/
theorem sdaDriven_runOps (ms : List MicroOp) (s : State) (h : s.cfg.wf = true) (hd : MicroOp.DS ∉ ms) :
    sdaDriven (runOps ms s) = dataAfter (ackOperand s) ms (sdaDriven s) := by
  induction ms generalizing s with
  | nil => rfl
  | cons m ms ih =>
    rw [List.mem_cons, not_or] at hd
    have ha : ackOperand (tick m s) = ackOperand s := by simp [ackOperand]
    rw [runOps, ih _ (by simpa using h) hd.2, sdaDriven_tick _ _ h, ha]
    cases m with
    | DS => exact absurd rfl hd.1
    | _ => rfl

/-- A list leaves every bit of `DIR` that is neither line's (R26). -/
theorem dir_runOps_other (ms : List MicroOp) (s : State) {q : Nat} (h1 : q ≠ s.cfg.sdaIdx) (h2 : q ≠ s.cfg.sclIdx) :
    (runOps ms s).dir.getLsbD q = s.dir.getLsbD q := by
  induction ms generalizing s with
  | nil => rfl
  | cons m ms ih => rw [runOps, ih _ (by simpa using h1) (by simpa using h2), dir_tick_other _ _ h1 h2]

/-- A list without `OC` leaves `OUT` (R89). -/
theorem out_runOps (ms : List MicroOp) (s : State) (h : MicroOp.OC ∉ ms) : (runOps ms s).out = s.out := by
  induction ms generalizing s with
  | nil => rfl
  | cons m ms ih =>
    rw [List.mem_cons, not_or] at h
    rw [runOps, ih _ h.2, tick_out _ _ (Ne.symm h.1)]

/-- A list's settle delays add up (R90). -/
theorem settles_runOps (ms : List MicroOp) (s : State) :
    (runOps ms s).settles = s.settles + (ms.map (settlesOf (ackOperand s))).sum := by
  induction ms generalizing s with
  | nil => rfl
  | cons m ms ih =>
    have ha : ackOperand (tick m s) = ackOperand s := by simp [ackOperand]
    rw [runOps, ih, settles_tick, ha, List.map_cons, List.sum_cons]
    omega

/-! ### A command -/

theorem exec_eq_command (i : Instr) (s : State) : exec i s = command i s := by cases i <;> rfl

/-- A ready engine launches the command and runs its micro-program to completion. -/
theorem exec_ready (i : Instr) {s : State} (h : Ready s) :
    exec i s = .next (complete i (runOps (microprogram i) (launch i (encode i) s))) := by
  rw [exec_eq_command, command, if_pos h.wf, h.released, h.idle]
  rfl

/-- Everything `exec` can answer: a refusal of the configuration, an ignored or overrunning write, or the whole command. -/
theorem exec_cases (i : Instr) (s : State) :
    (s.cfg.wf = false ∧ exec i s = .refused .badConfig) ∨
    (s.cfg.wf = true ∧ s.rst = true ∧ exec i s = .next s) ∨
    (s.cfg.wf = true ∧ s.rst = false ∧ s.busy = true ∧ exec i s = .next { s with errOvr := true }) ∨
    (Ready s ∧ exec i s = .next (complete i (runOps (microprogram i) (launch i (encode i) s)))) := by
  cases hw : s.cfg.wf
  · exact .inl ⟨rfl, by rw [exec_eq_command, command, hw]; rfl⟩
  · cases hr : s.rst
    · cases hb : s.busy
      · exact .inr (.inr (.inr ⟨⟨hw, hr, hb⟩, exec_ready i ⟨hw, hr, hb⟩⟩))
      · exact .inr (.inr (.inl ⟨rfl, rfl, rfl, by simp [exec_eq_command, command, hw, hr, hb, writeCmd, raise]⟩))
    · exact .inr (.inl ⟨rfl, rfl, by simp [exec_eq_command, command, hw, hr, writeCmd]⟩)

/-- An engine step that is not its command's last (R91). -/
theorem engineStep_next {s : State} {i : Instr} {m : MicroOp} (hb : s.busy = true) (hd : decode s.cmdr = .legal i)
    (hm : (microprogram i)[s.upc.toNat]? = some m) (hl : s.upc.toNat + 1 < (microprogram i).length) :
    engineStep s = .next { tick m s with upc := s.upc + 1#5 } := by
  simp only [engineStep, hb, hd, hm, hl, if_true]

/-- An engine step that is its command's last (R91, R92). -/
theorem engineStep_last {s : State} {i : Instr} {m : MicroOp} (hb : s.busy = true) (hd : decode s.cmdr = .legal i)
    (hm : (microprogram i)[s.upc.toNat]? = some m) (hl : ¬s.upc.toNat + 1 < (microprogram i).length) :
    engineStep s = .next (complete i (tick m s)) := by
  simp only [engineStep, hb, hd, hm, hl, if_true, if_false]

/-- Everything an engine step can be: none when idle, a stop with `sequencerLost`, or one micro-operation, the last of
which completes the command (R91, R92). -/
theorem engineStep_cases (s : State) :
    (s.busy = false ∧ engineStep s = .next s) ∨
    (s.busy = true ∧ engineStep s = .fault .sequencerLost) ∨
    (∃ i m, s.busy = true ∧ decode s.cmdr = .legal i ∧ (microprogram i)[s.upc.toNat]? = some m ∧
      ((s.upc.toNat + 1 < (microprogram i).length ∧ engineStep s = .next { tick m s with upc := s.upc + 1#5 }) ∨
        (s.upc.toNat + 1 = (microprogram i).length ∧ engineStep s = .next (complete i (tick m s))))) := by
  unfold engineStep
  cases hb : s.busy
  · exact .inl ⟨rfl, rfl⟩
  · cases hd : decode s.cmdr with
    | illegal r => exact .inr (.inl ⟨rfl, rfl⟩)
    | legal i =>
      cases hm : (microprogram i)[s.upc.toNat]? with
      | none => exact .inr (.inl ⟨rfl, by simp [hm]⟩)
      | some m =>
        refine .inr (.inr ⟨i, m, rfl, rfl, hm, ?_⟩)
        obtain ⟨hlt, -⟩ := List.getElem?_eq_some_iff.1 hm
        by_cases hl : s.upc.toNat + 1 < (microprogram i).length
        · exact .inl ⟨hl, by simp only [hm, hl, if_true]⟩
        · exact .inr ⟨by omega, by simp only [hm, hl, if_true, if_false]⟩

end Sys2Proof.Machine
end

