-- ==== Sys2Proof/Laws/Step.lean ====
section
/-! SUPPORT. Everything a step can do, said once. -/

namespace Sys2Proof.Machine

/-- What one move can make of a state `s`, `a` being the agenda the move was taken from. -/
inductive Effect (a : List Move) (s : State) : State → Prop
  /-- Nothing: the engine is idle, the host waits or has no transaction, a write to `STATUS` or `RXDATA`. -/
  | idle : Effect a s s
  /-- A whole command. -/
  | ran (i : Instr) {t : State} (h : exec i s = .next t) : Effect a s t
  /-- A write to `CMD`. -/
  | wrote (w : Word) : Effect a s (writeCmd w s)
  /-- A host read. -/
  | read (d : Word) : Effect a s { s with hostData := d }
  /-- An engine step. -/
  | ticked {t : State} (h : engineStep s = .next t) : Effect a s t
  /-- The host waits, or begins a transaction. -/
  | host (n : Nat) (k : Option EeTask) : Effect a s { s with waits := n, task := k }
  /-- A line of a transaction: a command, then what the host stores, then the next line. -/
  | line (i : Instr) (t : EeTask) (k : Option EeTask) {u : State} (h : exec i s = .next u) :
      Effect a s { eeStore t u with task := k }
  /-- The environment moves. -/
  | env (low : EnvLow) : Effect a s { s with env := s.env.move low }
  /-- The co-user reads the port. -/
  | couserRead : Effect a s (couserRead s)
  /-- The co-user writes the port. -/
  | couserWrite (r : Latch) (bits v : Port) : Effect a s (couserWrite r bits v s)
  /-- The reset input. -/
  | rst (b : Bool) (rest : List Move) (h : a = .rst b :: rest) : Effect a s (setRst b s)

theorem hostStep_effect {a : List Move} {s t : State} (h : hostStep s = .next t) : Effect a s t := by
  unfold hostStep at h
  split at h
  · cases h; exact .idle
  · split at h
    · rename_i k hk
      unfold eeStep at h
      split at h
      · cases h; exact .host _ _
      · rename_i i hi
        split at h
        · rename_i u hu
          cases h; exact .line i k _ hu
        · cases h
        · cases h
    · cases h; exact .idle

theorem eeBegin_effect {a : List Move} {s t : State} {k : EeTask} {x : EeArgs} (h : eeBegin k x s = .next t) :
    Effect a s t := by
  unfold eeBegin at h
  split at h
  · split at h
    · split at h
      · cases h; exact .host s.waits _
      · cases h
    · cases h
  · cases h

theorem perform_effect {m : Move} {rest : List Move} {s t : State} (h : perform m s = .next t) :
    Effect (m :: rest) s t := by
  cases m with
  | call w =>
    simp only [perform, hostCall] at h
    split at h
    · exact .ran _ h
    · cases h; exact .wrote w
  | hostWrite addr w =>
    simp only [perform, hostWrite] at h
    split at h
    · cases h; exact .wrote w
    · cases h; exact .idle
    · cases h; exact .idle
    · cases h
  | hostRead addr =>
    simp only [perform, hostRead] at h
    split at h
    · cases h; exact .read _
    · cases h
  | engine => exact .ticked h
  | host => exact hostStep_effect h
  | env low => cases h; exact .env low
  | couserRead ref =>
    simp only [perform, couserReadAt] at h
    split at h
    · cases h; exact .couserRead
    · cases h
  | couserWrite ref bits v =>
    simp only [perform, couserWriteAt] at h
    split at h
    · cases h; exact .couserWrite .dir bits v
    · cases h; exact .couserWrite .out bits v
    · cases h
    · cases h
  | rst b => cases h; exact .rst b rest rfl
  | eeWrite x c => exact eeBegin_effect h
  | eeRead x => exact eeBegin_effect h

/-- Everything a step that answers a next state can have done: one effect on the state without the move it took. -/
theorem step_effect {s t : State} (h : step s = .next t) :
    s.cfg.wf = true ∧ ∃ rest, Effect s.agenda { s with agenda := rest } t := by
  unfold step at h
  split at h
  · rename_i hw
    refine ⟨hw, ?_⟩
    unfold nextMove at h
    split at h
    · rename_i m rest ha
      exact ⟨rest, ha ▸ perform_effect h⟩
    · rename_i ha
      have e : { s with agenda := [] } = s := by rw [← ha]
      refine ⟨[], e.symm ▸ ?_⟩
      unfold idleMove at h
      split at h
      · exact .ticked h
      · exact hostStep_effect h
  · cases h

end Sys2Proof.Machine
end

