-- ==== Sys2Proof/Tests/Slice0.lean ====
section
/-! SUPPORT. Tests: words and vectors of 95_test_vectors.md, ill-formed terms, and a witness for every statement with
hypotheses. Every expected value is the spec's. -/

namespace Sys2Proof.Tests

open Sys2Proof.Machine

/-! ### Helpers -/

/-- The outcome is a next state with the property. -/
def nextSat (o : Host.Outcome State Fault Refusal) (p : State → Bool) : Bool :=
  match o with
  | .next t => p t
  | .fault _ => false
  | .refused _ => false

/-- A port with `DIR` and `OUT` as given, after reset. -/
def atReset (dir out : Port) : State :=
  State.resetOf { Config.standard with portResetDir := dir, portResetOut := out }

/-- State S0 of 95_test_vectors.md with another `DIR`: reset, then `INIT` completed. -/
def s0 (dir : Port) : State := { atReset dir 0x0F#8 with cmdr := 0x0100#16, inited := true }

/-- S0 inside a frame. -/
def framed (dir : Port) : State := { s0 dir with frame := .opened, cmdr := 0x0200#16 }

def pull (b : Bool) : EnvLow := { sda := b, scl := false }

/-- The environment pulls nothing for 27 moves, then answers the acknowledge sample. -/
def answering (ack : Bool) (s : State) : State :=
  { s with env := { low := pull false, answers := List.replicate 27 (pull false) ++ [pull ack], moves := 0 } }

/-- The environment presents a byte to a `RECV`. -/
def presenting (v : Byte) (s : State) : State :=
  { s with env := { low := pull false, answers := presents (bitsMsbFirst v), moves := 0 } }

/-- Nobody pulls a line, now or for the next 28 moves. -/
def quiet (s : State) : State :=
  { s with env := { low := pull false, answers := List.replicate 28 (pull false), moves := 0 } }

/-- V19: five engine steps into `SEND 0xA5`. -/
def midSend : State := { framed 0x3F#8 with cmdr := 0x04A5#16, sr := 0x94#8, upc := 5#5, busy := true }

def args (length : Nat) : EeArgs := { addr := 0x0123#16, buf := { base := 8, size := 4 }, offset := 1, length := length }

/-! ### What the checks of WellFormed refuse -/

theorem test_w0_refuses_an_operand : Format.W0.admits 0x01#8 = false := by decide
theorem test_w1_refuses_a_reserved_bit : Format.W1.admits 0x02#8 = false := by decide
theorem test_w8_admits_every_bit : Format.W8.admits 0xFF#8 = true := by decide
theorem test_config_refuses_data_pin : ({ Config.standard with sdaIdx := 8 } : Config).wf = false := by decide
theorem test_config_refuses_clock_pin : ({ Config.standard with sclIdx := 8 } : Config).wf = false := by decide
theorem test_config_refuses_equal_pins : ({ Config.standard with sclIdx := 4 } : Config).wf = false := by decide
theorem test_config_refuses_shared_register : ({ Config.standard with outRef := 0 } : Config).wf = false := by decide
theorem test_config_refuses_no_settle : ({ Config.standard with settle := 0 } : Config).wf = false := by decide
theorem test_host_refuses_odd_ws : ({ Config.standard with ws := 0xA1#8 } : Config).hostWf = false := by decide
theorem test_host_refuses_no_page : ({ Config.standard with pageSize := 0 } : Config).hostWf = false := by decide
theorem test_host_refuses_no_wait : ({ Config.standard with pollWait := 0 } : Config).hostWf = false := by decide

/-! ### Decoding: words written out from the encodings of R65 and R67, V1, V2 -/

theorem test_decode_init : decode 0b0000000100000000#16 = .legal .init := by decide
theorem test_decode_start : decode 0b0000001000000000#16 = .legal .start := by decide
theorem test_decode_stop : decode 0b0000001100000000#16 = .legal .stop := by decide
theorem test_decode_send : decode 0b0000010010100101#16 = .legal (.send 0xA5#8) := by decide
theorem test_decode_recv_ack : decode 0b0000010100000001#16 = .legal (.recv true) := by decide
theorem test_decode_recv_nack : decode 0b0000010100000000#16 = .legal (.recv false) := by decide
theorem test_decode_zero : decode 0x0000#16 = .illegal .zeroOpcode := by decide
theorem test_decode_operand_bits : decode 0x0101#16 = .illegal (.operandBits 1#8 1#8) := by decide
theorem test_decode_recv_reserved : decode 0x0502#16 = .illegal (.operandBits 5#8 2#8) := by decide
theorem test_decode_recv_high : decode 0x0580#16 = .illegal (.operandBits 5#8 0x80#8) := by decide
theorem test_decode_unused : decode 0x0600#16 = .illegal (.unusedOpcode 6#8) := by decide
theorem test_decode_top : decode 0xFFFF#16 = .illegal (.unusedOpcode 0xFF#8) := by decide

/-! ### Micro-operations, V3 -/

theorem test_cl : (opCL (s0 0x0F#8)).dir = 0x2F#8 := by decide
theorem test_cr : (opCR (s0 0x3F#8)).dir = 0x1F#8 := by decide
theorem test_dl : (opDL (s0 0x2F#8)).dir = 0x3F#8 := by decide
theorem test_dr : (opDR (s0 0x1F#8)).dir = 0x0F#8 := by decide
theorem test_ds_one : let t := opDS { s0 0x3F#8 with sr := 0xA5#8 }; t.dir = 0x2F#8 ∧ t.sr = 0x4A#8 := by decide
theorem test_ds_zero : let t := opDS { s0 0x2F#8 with sr := 0x4A#8 }; t.dir = 0x3F#8 ∧ t.sr = 0x94#8 := by decide
theorem test_da_ack : (opDA { s0 0x2F#8 with cmdr := 0x0501#16 }).dir = 0x3F#8 := by decide
theorem test_da_nack : opDA { s0 0x2F#8 with cmdr := 0x0500#16 } = { s0 0x2F#8 with cmdr := 0x0500#16 } := rfl
theorem test_sma_low : (opSMA { s0 0x0F#8 with env := ⟨pull true, [], 0⟩ }).ackbit = true := by decide
theorem test_smd_high : (opSMD { s0 0x0F#8 with sr := 0x52#8, env := ⟨pull false, [], 0⟩ }).sr = 0xA5#8 := by decide
theorem test_smd_low : (opSMD { s0 0x0F#8 with sr := 0xFF#8, env := ⟨pull true, [], 0⟩ }).sr = 0xFE#8 := by decide
theorem test_ir : (opIR (atReset 0xFF#8 0xFF#8)).dir = 0xCF#8 := by decide
theorem test_oc : (opOC (atReset 0xFF#8 0xFF#8)).out = 0xCF#8 := by decide

/-! ### The commands -/

/-- V4. -/
theorem test_init : nextSat (exec .init (atReset 0xFF#8 0xFF#8)) (fun t =>
    t.dir == 0xCF#8 && t.out == 0xCF#8 && statusWord t == 0x0000#16 && t.inited && t.frame == .closed && !t.viol) = true := by
  decide

/-- V6. -/
theorem test_start : nextSat (exec .start (s0 0x0F#8)) (fun t =>
    t.dir == 0x1F#8 && t.frame == .opened && !t.viol && statusWord t == 0x0000#16) = true := by decide

/-- V7, third row: the clock held low, the data line falls, the contract is broken. -/
theorem test_start_clock_low : nextSat (exec .start (s0 0x2F#8)) (fun t => t.dir == 0x3F#8 && t.viol) = true := by decide

/-- V9, second row. -/
theorem test_stop : nextSat (exec .stop (framed 0x1F#8)) (fun t =>
    t.dir == 0x0F#8 && t.frame == .closed && t.settles == 4) = true := by decide

/-- V10. -/
theorem test_send_acknowledged : nextSat (exec (.send 0xA5#8) (answering true (framed 0x1F#8))) (fun t =>
    t.dir == 0x0F#8 && statusWord t == 0x0002#16 && t.sr == 0x00#8 && t.settles == 27 && !t.viol) = true := by decide

/-- V22: no frame, no acknowledgment. -/
theorem test_send_outside_a_frame : nextSat (exec (.send 0x55#8) (answering false (s0 0x0F#8))) (fun t =>
    t.dir == 0x0F#8 && !t.ack && t.viol && statusWord t == 0x0000#16) = true := by decide

/-- V14. -/
theorem test_recv_nack : nextSat (exec (.recv false) (presenting 0x3C#8 (framed 0x0F#8))) (fun t =>
    t.rxdata == 0x3C#8 && t.dir == 0x0F#8 && t.settles == 19) = true := by decide

/-- V15. -/
theorem test_recv_ack : nextSat (exec (.recv true) (presenting 0xC3#8 (framed 0x1F#8))) (fun t =>
    t.rxdata == 0xC3#8 && t.dir == 0x1F#8 && t.settles == 20) = true := by decide

/-! ### Errors, reset, the step -/

/-- V18. -/
theorem test_illegal_word : nextSat (hostWrite 0 0x0600#16 (s0 0x0F#8)) (fun t =>
    statusWord t == 0x0004#16 && t.cmdr == 0x0100#16 && t.dir == 0x0F#8) = true := by decide

/-- V19: an illegal word while busy is an overrun only. -/
theorem test_overrun : nextSat (hostWrite 0 0xFFFF#16 midSend) (fun t =>
    statusWord t == 0x0009#16 && t.cmdr == 0x04A5#16 && t.upc == 5#5) = true := by decide

/-- V21. -/
theorem test_reset_mid_command : nextSat (perform (.rst true) midSend) (fun t =>
    t.cmdr == 0#16 && t.sr == 0#8 && t.upc == 0#5 && !t.busy && t.dir == 0x3F#8 && t.out == 0x0F#8 && !t.inited) = true := by
  decide

/-- V23: `START` before `INIT` with latch bits at 1 drives the data line high. -/
theorem test_start_before_init : nextSat (exec .start (quiet (atReset 0x00#8 0x30#8))) (fun t =>
    t.viol && t.dir == 0x10#8 && t.out == 0x30#8 && level t 4) = true := by decide

/-- V10, cell 2: the sixth engine step of `SEND 0xA5` leaves the clock released. -/
theorem test_engine_step : nextSat (engineStep midSend) (fun t => t.dir == 0x1F#8 && t.upc == 6#5 && t.busy) = true := by
  decide

/-- The co-user reaches the direction register where the platform's reference says (R44). -/
theorem test_couser_write_by_reference :
    nextSat (perform (.couserWrite 9 0x03#8 0x03#8) (State.resetOf { Config.standard with dirRef := 9 })) (fun t =>
      t.dir == 0x03#8 && t.out == 0x00#8 && !t.viol) = true := by decide

/-- An out-of-bounds configuration is refused (U20). -/
theorem test_bad_config : (match step (State.resetOf { Config.standard with sclIdx := 4 }) with
    | .refused .badConfig => true
    | _ => false) = true := by decide

/-- The first instruction after reset. -/
theorem test_fetch_word : nextSat (step (State.reset.withFetchWord 16 0x0300)) (fun t =>
    t.cmdr == 0x0300#16 && t.viol && t.agenda == []) = true := by decide

/-- P4: a busy answer to the poll begins it again. -/
theorem test_poll_busy : nextSat (eeStep .pollSelect (answering false (framed 0x1F#8))) (fun t =>
    t.cmdr == 0x04A0#16 && t.task == some .pollWait) = true := by decide

/-- P2, command 8: the byte received is stored and acknowledged. -/
theorem test_read_data : nextSat (eeStep (.readData (args 3) 0) (presenting 0x11#8 (framed 0x0F#8))) (fun t =>
    t.mem == [(9, 0x11#8)] && t.cmdr == 0x0501#16 && t.task == some (.readData (args 3) 1)) = true := by decide

theorem test_memory_write_blank_unlists : Memory.write [(3, 1#8), (5, 2#8)] 5 0#8 = [(3, 1#8)] := by decide
theorem test_memory_wf_refuses_disorder : Memory.wf [(5, 1#8), (3, 2#8)] = false := by decide
theorem test_memory_wf_refuses_blank : Memory.wf [(5, 0#8)] = false := by decide

/-! ### Witnesses: every statement's hypotheses are met together, each clause at a boundary of its range -/

/-- A quiet ready engine, right after `INIT`. -/
abbrev idleState : State := quiet (s0 0x0F#8)

/-- A quiet ready engine inside a frame, the data line held low. -/
abbrev frameState : State := quiet (framed 0x1F#8)

/-- Right after reset on a port whose latch bits are 1. -/
abbrev latchOne : State := quiet (atReset 0x00#8 0x30#8)

/-- The last engine step of `STOP`. -/
abbrev lastStep : State := { s0 0x1F#8 with cmdr := 0x0300#16, upc := 3#5, busy := true }

/-- A ready host about to perform a line of a transaction, the device answering `ack`. -/
def atLine (t : EeTask) (ack : Bool) : State := { answering ack (framed 0x0F#8) with task := some t }

theorem ready_idleState : Ready idleState := ⟨by decide, rfl, rfl⟩
theorem ready_frameState : Ready frameState := ⟨by decide, rfl, rfl⟩
theorem latchLow_idleState : LatchLow idleState := by constructor <;> decide
theorem quiet_idleState : idleState.env.quietFor 28 := ⟨rfl, rfl⟩
theorem ready_atLine (t : EeTask) (ack : Bool) : Ready (atLine t ack) := ⟨rfl, rfl, rfl⟩

theorem witness_EncodeThenDecode : (Instr.send 0xFF#8).wellFormed = true ∧ (Instr.recv true).wellFormed = true := by decide

theorem witness_DecodeFollowsTheChain :
    (opField 0x0100#16 = 1#8 ∧ argField 0x0100#16 = 0#8) ∧ (opField 0x0200#16 = 2#8 ∧ argField 0x0200#16 = 0#8) ∧
    (opField 0x0300#16 = 3#8 ∧ argField 0x0300#16 = 0#8) ∧ opField 0x04FF#16 = 4#8 ∧
    (opField 0x0501#16 = 5#8 ∧ (argField 0x0501#16).extractLsb' 1 7 = 0#7) ∧
    (opField 0x0502#16 = 5#8 ∧ (argField 0x0502#16).extractLsb' 1 7 ≠ 0#7) ∧ decode 0x04FF#16 = .legal (.send 0xFF#8) := by
  decide

theorem witness_TableRowsSelectTheCommand :
    decode 0x0501#16 = .legal (.recv true) ∧ rowSelects (.send 0x00#8) 0x04FF#16 = true ∧
    rowSelects (.recv true) 0x0500#16 = true ∧ rowSelects (.recv false) 0x0500#16 = true := by decide

theorem witness_IllegalWordsAreThoseListed :
    opField 0x00FF#16 = 0#8 ∧ 6#8 ≤ opField 0x0600#16 ∧ (opField 0x0301#16 = 3#8 ∧ argField 0x0301#16 ≠ 0#8) ∧
    (opField 0x0580#16 = 5#8 ∧ (argField 0x0580#16).extractLsb' 1 7 ≠ 0#7) := by decide

theorem witness_PortAccessChangesTheMaskOnly : (bit 7).getLsbD 7 = true ∧ (bit 7).getLsbD 0 = false := by decide

theorem witness_AccessIdempotency :
    (∃ t, hostRead (idleState.cfg.hostBase + 1) idleState = .next t) ∧
    (∃ t, hostRead (idleState.cfg.hostBase + 2) idleState = .next t) ∧ Ready idleState ∧
    decode 0x0200#16 = .legal .start :=
  ⟨⟨_, rfl⟩, ⟨_, rfl⟩, ready_idleState, by decide⟩

/-- Driven low, released, driven high. -/
theorem witness_InputFollowsTheLevels :
    (frameState.dir.getLsbD 4 = true ∧ frameState.out.getLsbD 4 = false) ∧ frameState.dir.getLsbD 7 = false ∧
    (let s : State := { latchOne with dir := 0x10#8 }
     s.dir.getLsbD 4 = true ∧ s.out.getLsbD 4 = true ∧ envLow s 4 = false) := by decide

theorem witness_LineOperationsDriveTheLines :
    idleState.cfg.wf = true ∧ idleState.out.getLsbD 5 = false ∧ idleState.out.getLsbD 4 = false ∧
    sclDriven midSend = true ∧ sdaDriven midSend = true ∧ sclDriven idleState = false ∧ sdaDriven idleState = false := by
  decide

theorem witness_ConditionalLineOperations :
    midSend.sr.getLsbD 7 = true ∧ idleState.sr.getLsbD 7 = false ∧ midSend.cmdr.getLsbD 0 = true ∧
    idleState.cmdr.getLsbD 0 = false := by decide

theorem witness_SamplesReadTheDataLine : idleState.cfg.wf = true ∧ sdaDriven idleState = false := by decide

theorem witness_InitialisationOperations :
    idleState.cfg.wf = true ∧ (3 ≠ idleState.cfg.sdaIdx ∧ 3 ≠ idleState.cfg.sclIdx) ∧ MicroOp.CL ≠ .OC := by decide

theorem witness_LatchOneDrivesHigh :
    latchOne.cfg.wf = true ∧ latchOne.out.getLsbD 5 = true ∧ latchOne.env.low.scl = false ∧
    latchOne.out.getLsbD 4 = true ∧ latchOne.env.low.sda = false ∧ srTop latchOne = false := by decide

theorem witness_CmdWriteLaunchesOrRaises :
    (midSend.rst = false ∧ midSend.busy = true) ∧ (idleState.rst = false ∧ idleState.busy = false) ∧
    decode 0x0000#16 = .illegal .zeroOpcode ∧ decode 0x04FF#16 = .legal (.send 0xFF#8) := by decide

theorem witness_EngineStepExecutesOneMicroOperation :
    idleState.busy = false ∧
    (midSend.busy = true ∧ decode midSend.cmdr = .legal (.send 0xA5#8) ∧
      (microprogram (.send 0xA5#8))[midSend.upc.toNat]? = some .CR ∧
      midSend.upc.toNat + 1 < (microprogram (.send 0xA5#8)).length) ∧
    (lastStep.busy = true ∧ decode lastStep.cmdr = .legal .stop ∧ (microprogram .stop)[lastStep.upc.toNat]? = some .DR ∧
      lastStep.upc.toNat + 1 = (microprogram .stop).length) := by decide

theorem witness_CommandIsItsEngineSteps : Ready idleState ∧ 27 < (microprogram (.send 0xFF#8)).length :=
  ⟨ready_idleState, by decide⟩

theorem witness_InitResult : Ready frameState := ready_frameState
theorem witness_StartResult : Ready idleState := ready_idleState
theorem witness_StopResult : Ready frameState := ready_frameState
theorem witness_SendResult : Ready (answering true (framed 0x1F#8)) := ⟨by decide, rfl, rfl⟩
theorem witness_RecvResult : Ready (presenting 0xC3#8 (framed 0x1F#8)) := ⟨by decide, rfl, rfl⟩

theorem witness_EndStates :
    Ready idleState ∧ nextSat (exec .start idleState) (fun t => !t.viol) = true := ⟨ready_idleState, by decide⟩

theorem witness_InitIsIdempotent : Ready frameState ∧ Instr.stop ≠ .init ∧ ∃ t, exec .stop frameState = .next t :=
  ⟨ready_frameState, by decide, _, rfl⟩

/-- A command run, and one turned away. -/
theorem witness_CommandFrame :
    (∃ t, exec .stop idleState = .next t) ∧ idleState.busy = false ∧ (∃ t, exec .init midSend = .next t) ∧
    (∀ v, Instr.stop ≠ .send v) ∧ (∀ a, Instr.stop ≠ .recv a) ∧ Instr.stop ≠ .init ∧
    (7 ≠ idleState.cfg.sdaIdx ∧ 7 ≠ idleState.cfg.sclIdx) :=
  ⟨⟨_, rfl⟩, rfl, ⟨_, rfl⟩, by simp, by simp, by decide, by decide⟩

theorem witness_CommandSettleDelays : Ready frameState := ready_frameState

theorem witness_IllegalCmdSetsItsFlagOnly :
    idleState.cfg.wf = true ∧ idleState.rst = false ∧ idleState.busy = false ∧
    decode 0x0600#16 = .illegal (.unusedOpcode 6#8) := by decide

theorem witness_CmdOverrunLeavesTheCommandRunning :
    midSend.cfg.wf = true ∧ midSend.rst = false ∧ midSend.busy = true ∧ ∃ t, engineSteps 1 midSend = .next t :=
  ⟨by decide, rfl, rfl, _, rfl⟩

theorem witness_ErrorFlagsAreStickyAndGateNothing :
    (let s : State := { idleState with errIll := true, errOvr := true, agenda := [.call 0x0200#16] }
     (∃ t, step s = .next t) ∧ (∀ rest, s.agenda ≠ .rst true :: rest) ∧ s.errIll = true ∧ s.errOvr = true) ∧
    Ready idleState :=
  ⟨⟨⟨_, rfl⟩, by simp, rfl, rfl⟩, ready_idleState⟩

theorem witness_GhostStateHasNoEffect : Ready latchOne := ⟨by decide, rfl, rfl⟩

/-- A bound of the configuration is broken. -/
abbrev OutOfBounds (c : Config) : Prop :=
  ¬(c.sdaIdx < 8 ∧ c.sclIdx < 8 ∧ c.sdaIdx ≠ c.sclIdx ∧ 0 < c.settle ∧
    c.dirRef ≠ c.outRef ∧ c.dirRef ≠ c.inRef ∧ c.outRef ≠ c.inRef)

/-- Each of the bounds broken in turn. -/
theorem witness_BadConfigurationIsRefused :
    OutOfBounds { Config.standard with sdaIdx := 8 } ∧ OutOfBounds { Config.standard with sclIdx := 8 } ∧
    OutOfBounds { Config.standard with sclIdx := 4 } ∧ OutOfBounds { Config.standard with settle := 0 } ∧
    OutOfBounds { Config.standard with outRef := 0 } ∧ OutOfBounds { Config.standard with inRef := 0 } ∧
    OutOfBounds { Config.standard with inRef := 1 } := by
  refine ⟨?_, ?_, ?_, ?_, ?_, ?_, ?_⟩ <;> decide

theorem witness_DiagnosticHookIsInert : ∃ t, exec .start idleState = .next t := ⟨_, rfl⟩
theorem witness_ClockLineIsNeverSampled : Ready idleState := ready_idleState
theorem witness_StartConditionExactlyWhenBothHigh : Ready idleState ∧ LatchLow idleState :=
  ⟨ready_idleState, latchLow_idleState⟩
theorem witness_StopConditionExactlyWhenUnpulled : Ready frameState ∧ LatchLow frameState :=
  ⟨ready_frameState, by constructor <;> decide⟩

/-- `DS` of a 0 bit in the first cell of `SEND 0x00`, the last `DR` of `STOP`, the `DL` of `START`, the `IR` of `INIT`. -/
theorem witness_DataChangesUnderClockLow :
    idleState.cfg.wf = true ∧
    (let t := runOps [.CL] (launch (.send 0x00#8) 0x0400#16 idleState)
     microprogram (.send 0x00#8) = [.CL] ++ .DS :: (microprogram (.send 0x00#8)).drop 2 ∧
       sdaDriven (tick .DS t) ≠ sdaDriven t ∧ sclDriven t = true) ∧
    (let t := runOps [.CL, .DL, .CR] (launch .stop 0x0300#16 idleState)
     microprogram .stop = [.CL, .DL, .CR] ++ .DR :: [] ∧ sdaDriven (tick .DR t) ≠ sdaDriven t) ∧
    (let t := launch .start 0x0200#16 idleState
     microprogram .start = [] ++ .DL :: [] ∧ sdaDriven (tick .DL t) ≠ sdaDriven t) ∧
    (let t := launch .init 0x0100#16 frameState
     microprogram .init = [] ++ .IR :: [.OC] ∧ sdaDriven (tick .IR t) ≠ sdaDriven t) := by decide

theorem witness_ByteTransfersOnAQuietWire : Ready idleState ∧ LatchLow idleState ∧ idleState.env.quietFor 28 :=
  ⟨ready_idleState, latchLow_idleState, quiet_idleState⟩

theorem witness_LoopbackReproducesTheByte :
    Ready idleState ∧ LatchLow idleState ∧ idleState.env.quietFor 28 ∧ (∃ t, exec (.send 0xA5#8) idleState = .next t) ∧
    recvSamples (presenting 0xA5#8 idleState).env = (eventBits (commandEvents (.send 0xA5#8) idleState)).take 8 :=
  ⟨ready_idleState, latchLow_idleState, quiet_idleState, ⟨_, rfl⟩, by decide⟩

theorem witness_StepKeepsSequencerInv : SequencerInv midSend ∧ SequencerInv idleState ∧ ∃ t, step midSend = .next t :=
  ⟨by show midSend.upc.toNat < (microprogram (.send 0xA5#8)).length; decide, rfl, _, rfl⟩

theorem witness_BusyEngineNeverBlocks : SequencerInv lastStep ∧ lastStep.busy = true :=
  ⟨by show lastStep.upc.toNat < (microprogram .stop).length; decide, rfl⟩

/-- Idle, and in the middle of a command. -/
theorem witness_StepKeepsOpenDrain :
    (OpenDrainInv idleState ∧ idleState.inited = true ∧ idleState.viol = false ∧
      ¬(idleState.busy = true ∧ idleState.cmdr = encode .init) ∧ ∃ t, step idleState = .next t) ∧
    OpenDrainInv midSend ∧ midSend.inited = true ∧ midSend.viol = false ∧
    ¬(midSend.busy = true ∧ midSend.cmdr = encode .init) :=
  ⟨⟨fun _ _ _ => latchLow_idleState, rfl, rfl, by decide, _, rfl⟩, fun _ _ _ => by constructor <;> decide, rfl, rfl, by decide⟩

theorem witness_StepKeepsRestState :
    RestInv frameState ∧ frameState.inited = true ∧ frameState.viol = false ∧ frameState.busy = false ∧
    sdaDriven frameState = true ∧ RestInv midSend ∧ ∃ t, step midSend = .next t :=
  ⟨fun _ _ => ⟨by decide, by show sdaDriven frameState = true; decide⟩, rfl, rfl, rfl, by decide,
    fun _ _ => ⟨by decide, by show dataAfter true ((microprogram (.send 0xA5#8)).drop 5) true = false; decide⟩, _, rfl⟩

theorem witness_StepKeepsHostMemory :
    HostInv (atLine (.readData (args 3) 2) true) ∧ HostInv (atLine (.writeData (args 3) 2) true) ∧
    ∃ t, step (atLine (.readData (args 3) 2) true) = .next t := by
  refine ⟨⟨rfl, ?_⟩, ⟨rfl, ?_⟩, _, rfl⟩ <;> intro t h <;> cases h <;> exact ⟨by unfold EeArgs.fits; decide, by decide⟩

theorem witness_StepKeepsResetHeld :
    let s := setRst true { midSend with agenda := [.call 0x0100#16] }
    ResetHeld s ∧ s.rst = true ∧ ∃ t, step s = .next t :=
  ⟨fun _ => ⟨rfl, rfl, rfl, rfl, rfl, rfl, rfl, rfl⟩, rfl, _, rfl⟩

theorem witness_StepKeepsConfiguration : ∃ t, step midSend = .next t := ⟨_, rfl⟩

theorem witness_AssertingResetClearsTheEngineOnly : (setRst true midSend).cfg.wf = true := by decide

/-- Word addresses just below and just above the three registers. -/
theorem witness_HostRegisters :
    (let s := State.resetOf { Config.standard with hostBase := 1 }
     0 < s.cfg.hostBase ∧ s.cfg.hostBase + 3 ≤ 4) := by decide

theorem witness_StepRunsTheDecodedCommand :
    let s : State := { idleState with agenda := [.call 0x04FF#16] }
    s.cfg.wf = true ∧ s.agenda = .call 0x04FF#16 :: [] ∧ decode 0x04FF#16 = .legal (.send 0xFF#8) ∧
    decode 0x0600#16 = .illegal (.unusedOpcode 6#8) := by decide

theorem witness_StepWithAnEmptyAgenda :
    (midSend.cfg.wf = true ∧ midSend.agenda = [] ∧ midSend.busy = true) ∧
    (idleState.cfg.wf = true ∧ idleState.agenda = [] ∧ idleState.busy = false ∧ idleState.task = none) := by decide

theorem witness_CouserWritesItsBitsOnly :
    idleState.cfg.wf = true ∧ (∀ r, 3 ≠ portRef idleState.cfg r) ∧ (couserWrite .dir 0xCF#8 0x00#8 idleState).viol = false ∧
    (couserWrite .dir 0x10#8 0x10#8 idleState).viol = true :=
  ⟨by decide, by intro r; cases r <;> decide, by decide, by decide⟩

/-- No data byte, and one. -/
theorem witness_AddressingPhaseCommands : (args 0).length = 0 ∧ 0 < (args 1).length := by decide

theorem witness_AddressingAbortReturnsAtOnce :
    let s := atLine (.readAddrLo (args 3)) false
    Ready s ∧ s.agenda = [] ∧ s.task = some (.readAddrLo (args 3)) ∧ s.frame = .opened ∧
    EeTask.readAddrLo (args 3) ∈ [EeTask.writeSelect (args 3), .writeAddrHi (args 3), .writeAddrLo (args 3),
      .readSelect (args 3), .readAddrHi (args 3), .readAddrLo (args 3)] ∧
    (Env.after 28 s.env).low.sda = false :=
  ⟨ready_atLine _ _, rfl, rfl, rfl, by decide, rfl⟩

/-- A byte acknowledged before the last, one not acknowledged, and the last byte. -/
theorem witness_DataPhaseEndsInStop :
    (let s := atLine (.writeData (args 3) 1) true
     Ready s ∧ s.agenda = [] ∧ s.task = some (.writeData (args 3) 1) ∧ 1 + 1 < (args 3).length ∧
       nextSat (step s) (fun u => u.ack) = true) ∧
    (let s := atLine (.writeData (args 3) 1) false
     Ready s ∧ nextSat (step s) (fun u => !u.ack) = true) ∧
    (args 3).length ≤ 2 + 1 :=
  ⟨⟨ready_atLine _ _, rfl, rfl, by decide, by decide⟩, ⟨ready_atLine _ _, by decide⟩, by decide⟩

theorem witness_BusyPollRepeatsUntilAcknowledged :
    let s := atLine .pollWait true
    Ready s ∧ s.agenda = [] ∧ s.task = some .pollWait := ⟨ready_atLine _ _, rfl, rfl⟩

/-- A byte before the last, and the last. -/
theorem witness_BurstReadStoresOneByte :
    let s := atLine (.readData (args 3) 1) true
    let u := atLine (.readData (args 3) 2) true
    (Ready s ∧ MemInv s ∧ s.agenda = [] ∧ s.task = some (.readData (args 3) 1) ∧ 1 + 1 < (args 3).length) ∧
    (Ready u ∧ MemInv u ∧ u.agenda = [] ∧ u.task = some (.readData (args 3) 2) ∧ (args 3).length ≤ 2 + 1) ∧
    8 ≠ (args 3).at 1 :=
  ⟨⟨ready_atLine _ _, rfl, rfl, rfl, by decide⟩, ⟨ready_atLine _ _, rfl, rfl, rfl, by decide⟩, by decide⟩

/-- `RS` acknowledged, not acknowledged, and with no byte to read. -/
theorem witness_ReadSelectDecidesTheBurst :
    (let s := atLine (.readReselect (args 1)) true
     Ready s ∧ s.agenda = [] ∧ s.task = some (.readReselect (args 1)) ∧ 0 < (args 1).length ∧
       nextSat (step s) (fun u => u.ack) = true) ∧
    nextSat (step (atLine (.readReselect (args 1)) false)) (fun u => !u.ack) = true ∧ (args 0).length = 0 :=
  ⟨⟨ready_atLine _ _, rfl, rfl, by decide, by decide⟩, by decide, rfl⟩

/-- The longest call that fits, the shortest that does not, and a transaction in progress. -/
theorem witness_BeginningATransaction :
    idleState.cfg.hostWf = true ∧ ((args 3).offset + (args 3).length ≤ (args 3).buf.size ∧ idleState.task = none) ∧
    (args 4).buf.size < (args 4).offset + (args 4).length ∧ ∃ t, (atLine .writeStop true).task = some t :=
  ⟨by decide, ⟨by decide, rfl⟩, by decide, _, rfl⟩

end Sys2Proof.Tests
end

section
/-! SUPPORT. Accesses made twice in a row: the port's writes, the host's reads and the writes to `CMD` (R49). -/

namespace Sys2Proof.Machine

/-! ### Port writes (R47, R48) -/

/-- A latch reads as the value last written to it. -/
@[simp] theorem memRead_memWrite (r : Latch) (v : Port) (s : State) : memRead r.port (memWrite r v s) = v := by
  cases r <;> rfl

/-- Of two writes to one latch the second alone counts. -/
@[simp] theorem memWrite_memWrite (r : Latch) (v w : Port) (s : State) :
    memWrite r w (memWrite r v s) = memWrite r w s := by
  cases r <;> rfl

/-- A latch written with its own value: nothing changes. -/
@[simp] theorem memWrite_memRead (r : Latch) (s : State) : memWrite r (memRead r.port s) s = s := by
  cases r <;> rfl

/-- Masking out the same bits again removes nothing more. -/
theorem portClr_portClr (r : Latch) (m : Port) (s : State) : portClr r m (portClr r m s) = portClr r m s := by
  rw [portClr, portClr, memRead_memWrite, memWrite_memWrite, BitVec.and_assoc, BitVec.and_self]

/-- Setting the same bits again adds nothing more. -/
theorem portSet_portSet (r : Latch) (m : Port) (s : State) : portSet r m (portSet r m s) = portSet r m s := by
  rw [portSet, portSet, memRead_memWrite, memWrite_memWrite, BitVec.or_assoc, BitVec.or_self]

/-! ### Host reads (R27) -/

/-- No host register shows the value the host holds. -/
@[simp] theorem hostRegValue_hostData (r : HostReg) (d : Word) (s : State) :
    hostRegValue r { s with hostData := d } = hostRegValue r s := by
  cases r <;> rfl

/-- A read of a host register answers with the register's value. -/
theorem hostRead_of_hostReg {addr : Nat} {r : HostReg} {s : State} (h : hostReg s.cfg addr = some r) :
    hostRead addr s = .next { s with hostData := hostRegValue r s } := by
  rw [hostRead, h]

/-- A read that answers is a read of one of the host registers. -/
theorem hostRead_eq_next {addr : Nat} {s t : State} (h : hostRead addr s = .next t) :
    ∃ r, hostReg s.cfg addr = some r ∧ t = { s with hostData := hostRegValue r s } := by
  cases hr : hostReg s.cfg addr with
  | none => rw [hostRead, hr] at h; cases h
  | some r => rw [hostRead_of_hostReg hr] at h; cases h; exact ⟨r, rfl, rfl⟩

/-- The value read depends on nothing that the read changes, so reading again is no change. -/
theorem hostRead_again {addr : Nat} {s t : State} (h : hostRead addr s = .next t) : hostRead addr t = .next t := by
  obtain ⟨r, hr, rfl⟩ := hostRead_eq_next h
  have hr' : hostReg { s with hostData := hostRegValue r s }.cfg addr = some r := hr
  simp only [hostRead_of_hostReg hr', hostRegValue_hostData]

/-- A host read changes the value the host holds alone. -/
theorem hostRead_frame {addr : Nat} {s t : State} (h : hostRead addr s = .next t) :
    t = { s with hostData := t.hostData } := by
  obtain ⟨r, -, rfl⟩ := hostRead_eq_next h
  rfl

/-! ### Writes to `CMD` (R96) -/

/-- A ready engine launches the command of a legal word. -/
theorem writeCmd_ready {w : Word} {i : Instr} {s : State} (h : Ready s) (hd : decode w = .legal i) :
    writeCmd w s = launch i w s := by
  simp only [writeCmd, h.released, h.idle, hd, Bool.false_eq_true, if_false]

/-- A busy engine out of reset turns any word away with the overrun flag, before decoding it. -/
theorem writeCmd_busy (w : Word) {s : State} (hr : s.rst = false) (hb : s.busy = true) :
    writeCmd w s = { s with errOvr := true } := by
  simp only [writeCmd, hr, hb, Bool.false_eq_true, if_false, if_true, raise]

/-- Settles O7: each access made twice, by what it reads back of its own first effect. -/
theorem accessIdempotency : Obligations.AccessIdempotency := by
  refine ⟨fun r m s => ⟨portClr_portClr r m s, portSet_portSet r m s⟩, ?_, ?_, ?_⟩
  · intro r s p
    rw [memWrite_memRead]
  · intro k s t _ h
    exact ⟨hostRead_again h, hostRead_frame h⟩
  · intro w i s hs hd
    have hl : writeCmd w s = launch i w s := writeCmd_ready hs hd
    have hr : (launch i w s).rst = false := hs.released
    rw [hl]
    exact ⟨rfl, writeCmd_busy w hr rfl⟩

end Sys2Proof.Machine
end

section
/-! SUPPORT. The two fields of a command word decide what it decodes to, and `encode` is the one word with a command's
fields (R64, R71). -/

namespace Sys2Proof

/-- The `op` column of R67. -/
def Instr.opcode : Instr → Byte
  | .init => 0x01#8
  | .start => 0x02#8
  | .stop => 0x03#8
  | .send _ => 0x04#8
  | .recv _ => 0x05#8

/-! ### The two fields of a word (R64) -/

/-- The opcode and operand fields are the whole word. -/
theorem opField_append_argField (w : Word) : opField w ++ argField w = w := by
  rw [opField, argField, BitVec.extractLsb'_append_extractLsb'_eq_extractLsb' (by rfl)]
  exact BitVec.extractLsb'_eq_self

/-- Words with the same two fields are the same word. -/
theorem word_ext {w v : Word} (hop : opField w = opField v) (harg : argField w = argField v) : w = v := by
  rw [← opField_append_argField w, ← opField_append_argField v, hop, harg]

/-- A byte whose bits 7 to 1 are 0 is the flag in its bit 0. -/
theorem byte_eq_flag {b : Byte} (h : b.extractLsb' 1 7 = 0#7) : b = if b.getLsbD 0 then 1#8 else 0#8 := by
  revert b; decide

@[simp] theorem opField_encode (i : Instr) : opField (encode i) = i.opcode := by
  cases i with
  | init | start | stop => rfl
  | send v =>
    have hhigh : (v.zeroExtend 16).extractLsb' 8 8 = 0#8 := by ext k hk; simp
    rw [opField, encode, BitVec.extractLsb'_or, hhigh]
    rfl
  | recv a => cases a <;> rfl

/-- Every command's word lies in the command's own row and carries its operand byte. -/
theorem tableRow_statement (i : Instr) : Laws.TableRow.Statement i := by
  cases i with
  | init => exact Laws.TableRow.init
  | start => exact Laws.TableRow.start
  | stop => exact Laws.TableRow.stop
  | send v => exact Laws.TableRow.send v
  | recv a => exact Laws.TableRow.recv a

@[simp] theorem argField_encode (i : Instr) : argField (encode i) = i.arg := by
  obtain ⟨-, harg, -⟩ := tableRow_statement i
  exact harg

/-! ### Decoding by the fields (R71) -/

/-- A command's opcode and operand byte in the two fields decode to the command. -/
theorem decode_of_fields {w : Word} {i : Instr} (hop : opField w = i.opcode) (harg : argField w = i.arg) :
    decode w = .legal i := by
  cases i with
  | init | start | stop | send v => simp [decode, hop, harg, Instr.opcode, Instr.arg]
  | recv a => cases a <;> simp [decode, hop, harg, Instr.opcode, Instr.arg]

/-- A legal word carries the opcode and the operand byte of its command. -/
theorem fields_of_decode {w : Word} {i : Instr} (h : decode w = .legal i) :
    opField w = i.opcode ∧ argField w = i.arg := by
  unfold decode at h
  split_ifs at h with hinit harg hstart harg hstop harg hsend hrecv hres <;> cases h
  · exact ⟨hinit, harg⟩
  · exact ⟨hstart, harg⟩
  · exact ⟨hstop, harg⟩
  · exact ⟨hsend, rfl⟩
  · exact ⟨hrecv, byte_eq_flag hres⟩

/-- A word is legal exactly when it is the encoding of the command it decodes to. -/
theorem decode_eq_legal_iff {w : Word} {i : Instr} : decode w = .legal i ↔ encode i = w := by
  constructor
  · intro h
    obtain ⟨hop, harg⟩ := fields_of_decode h
    exact word_ext (by rw [opField_encode, hop]) (by rw [argField_encode, harg])
  · rintro rfl
    exact decode_of_fields (opField_encode i) (argField_encode i)

/-- `decode` undoes `encode` on every command. -/
theorem decode_encode (i : Instr) : decode (encode i) = .legal i := decode_eq_legal_iff.mpr rfl

/-- Settles O2: each test of the chain gives the word one command's fields, and a word that passes none has no command's. -/
theorem decodeFollowsTheChain : Obligations.DecodeFollowsTheChain := by
  intro w
  refine ⟨?_, fun _ => decode_eq_legal_iff.mp, rfl, rfl, rfl, fun _ => ⟨rfl, decode_encode _⟩,
    fun a => ⟨?_, decode_encode _⟩⟩
  · split_ifs with hinit hstart hstop hsend hrecv
    · exact decode_of_fields hinit.1 hinit.2
    · exact decode_of_fields hstart.1 hstart.2
    · exact decode_of_fields hstop.1 hstop.2
    · exact decode_of_fields hsend rfl
    · exact decode_of_fields hrecv.1 (byte_eq_flag hrecv.2)
    · cases hd : decode w with
      | illegal why => exact ⟨why, rfl⟩
      | legal i =>
        obtain ⟨hop, harg⟩ := fields_of_decode hd
        cases i with
        | init => exact absurd ⟨hop, harg⟩ hinit
        | start => exact absurd ⟨hop, harg⟩ hstart
        | stop => exact absurd ⟨hop, harg⟩ hstop
        | send v => exact absurd hop hsend
        | recv a => exact absurd ⟨hop, by rw [harg]; cases a <;> rfl⟩ hrecv
  · cases a <;> rfl

end Sys2Proof
end

section
/-! SUPPORT. Edge legality (R94): walking a micro-program once, each micro-operation that can move the data bit is met with
the clock held low or is one of the named edges of `START`, `STOP` and `INIT`. -/

namespace Sys2Proof.Machine

/-- A micro-operation that can change `DIR[SDA_IDX]`: the four on the data line, and `IR` on both lines. -/
def movesData (m : MicroOp) : Bool := isDataOp m || m == .IR

/-- The other micro-operations keep `DIR[SDA_IDX]`. -/
theorem sdaDriven_tick_of_not_movesData {m : MicroOp} {s : State} (h : s.cfg.wf = true) (hm : movesData m = false) :
    sdaDriven (tick m s) = sdaDriven s := by
  rw [sdaDriven_tick m s h]
  cases m with
  | DL | DR | DS | DA | IR => exact absurd hm (by decide)
  | CL | CR | SMA | SMD | OC => rfl

/-- What R94 allows of a change of the data bit by `m`, met with clock bit `c` and with `post` still to run. -/
def EdgeAllowed (i : Instr) (m : MicroOp) (post : List MicroOp) (c : Bool) : Prop :=
  (c = true ∧ clockAfter [m] c = true) ∨
    (i = .start ∧ m = .DL) ∨ (i = .stop ∧ m = .DR ∧ post = []) ∨ (i = .init ∧ m = .IR)

/-- Every micro-operation of a list, begun with clock bit `c`, that can move the data bit does so where R94 allows it. -/
def EdgesLegal (i : Instr) : List MicroOp → Bool → Prop
  | [], _ => True
  | m :: ms, c => (movesData m = true → EdgeAllowed i m ms c) ∧ EdgesLegal i ms (clockAfter [m] c)

/-- What is left of a legal list after some of it has run is legal from the clock bit reached. -/
theorem edgesLegal_of_append {i : Instr} {pre ms : List MicroOp} {c : Bool} (h : EdgesLegal i (pre ++ ms) c) :
    EdgesLegal i ms (clockAfter pre c) := by
  induction pre generalizing c with
  | nil => exact h
  | cons m pre ih =>
    rw [clockAfter_cons]
    exact ih h.2

/-- Every micro-program is legal from either clock bit: `SEND`, `RECV` and `STOP` hold the clock low before they touch the
data line, but for `STOP`'s last operation; `START` and `INIT` touch it only in the operations R94 exempts. -/
theorem edgesLegal_microprogram (i : Instr) (c : Bool) : EdgesLegal i (microprogram i) c := by
  cases i with
  | init => simp [microprogram, microInit, EdgesLegal, EdgeAllowed, movesData, isDataOp]
  | start => simp [microprogram, microStart, EdgesLegal, EdgeAllowed]
  | stop => simp [microprogram, microStop, EdgesLegal, EdgeAllowed, movesData, isDataOp, clockAfter]
  | send v => simp [microprogram, microSend, times, EdgesLegal, EdgeAllowed, movesData, isDataOp, clockAfter]
  | recv a => simp [microprogram, microRecv, times, EdgesLegal, EdgeAllowed, movesData, isDataOp, clockAfter]

/-- Settles O37: the micro-operation moves the data bit, so the walk of the micro-program allows it at the clock bit
reached. -/
theorem dataChangesUnderClockLow : Obligations.DataChangesUnderClockLow := by
  intro i w s pre post m hwf hprog t hchange
  have hwft : t.cfg.wf = true := by rw [runOps_cfg]; exact hwf
  have hmoves : movesData m = true := by
    by_contra hm
    exact hchange (sdaDriven_tick_of_not_movesData hwft (Bool.eq_false_of_not_eq_true hm))
  have hlegal : EdgesLegal i (m :: post) (clockAfter pre (sclDriven (launch i w s))) :=
    edgesLegal_of_append (hprog ▸ edgesLegal_microprogram i _)
  have hallowed : EdgeAllowed i m post (sclDriven t) := by
    rw [sclDriven_runOps pre (launch i w s) hwf]
    exact hlegal.1 hmoves
  rw [sclDriven_tick m t hwft]
  exact hallowed

end Sys2Proof.Machine
end

section
/-! SUPPORT. One line driven or released (R80 to R83), the shift register emptied by `DS` (R84) and filled by samples
(R87). -/

namespace Sys2Proof.Machine

/-! ### One line driven or released -/

/-- Setting a bit that is set changes nothing. -/
theorem or_bit_eq_self {v : Port} {p : Nat} (h : v.getLsbD p = true) : v ||| bit p = v := by
  apply BitVec.eq_of_getLsbD_eq
  intro q hq
  by_cases hpq : p = q
  · subst hpq
    rw [getLsbD_set_same v hq, h]
  · exact getLsbD_set_other v hpq

/-- Clearing a bit that is clear changes nothing. -/
theorem and_not_bit_eq_self {v : Port} {p : Nat} (h : v.getLsbD p = false) : v &&& ~~~bit p = v := by
  apply BitVec.eq_of_getLsbD_eq
  intro q hq
  by_cases hpq : p = q
  · subst hpq
    rw [getLsbD_clr_same, h]
  · exact getLsbD_clr_other v hpq

/-- Driving a line (R80, R82): the `DIR` bit and one delay, low with the latch bit 0, no change of a bit already set. -/
theorem settle_portSet_bit (s : State) {p : Nat} (hp : p < 8) :
    settle (portSet .dir (bit p) s) = { s with dir := s.dir ||| bit p, settles := s.settles + 1 } ∧
      (s.out.getLsbD p = false → level (settle (portSet .dir (bit p) s)) p = false) ∧
      (s.dir.getLsbD p = true → (settle (portSet .dir (bit p) s)).dir = s.dir) :=
  ⟨rfl, fun ho => level_drivenLow (getLsbD_set_same s.dir hp) ho, or_bit_eq_self⟩

/-- Releasing a line (R81, R83): the `DIR` bit and one delay, the level left to the environment, no change of a bit already
clear. -/
theorem settle_portClr_bit (s : State) (p : Nat) :
    settle (portClr .dir (bit p) s) = { s with dir := s.dir &&& ~~~bit p, settles := s.settles + 1 } ∧
      level (settle (portClr .dir (bit p) s)) p = !envLow s p ∧
      (s.dir.getLsbD p = false → (settle (portClr .dir (bit p) s)).dir = s.dir) :=
  ⟨rfl, level_released (getLsbD_clr_same s.dir p), and_not_bit_eq_self⟩

/-- Settles O9: `CL` and `DL` drive their line, `CR` and `DR` release it. -/
theorem lineOperationsDriveTheLines : Obligations.LineOperationsDriveTheLines := by
  intro s hwf
  obtain ⟨hsda, hscl, hne, -⟩ := (Config.wf_iff _).1 hwf
  refine ⟨settle_portSet_bit s hscl, ?_, settle_portSet_bit s hsda, ?_⟩
  · rw [← envLow_scl s hne]
    exact settle_portClr_bit s s.cfg.sclIdx
  · rw [← envLow_sda s]
    exact settle_portClr_bit s s.cfg.sdaIdx

/-! ### The shift register (R84, R87) -/

theorem tick_DS_sr (s : State) : (tick .DS s).sr = s.sr <<< 1 := by
  rw [tick, execMicro, opDS_eq]
  rfl

/-- `n` times `DS` shift `SR` left by `n`. -/
theorem sr_runOps_times_DS (n : Nat) (s : State) : (runOps (times n [.DS]) s).sr = s.sr <<< n := by
  induction n generalizing s with
  | zero => exact (BitVec.shiftLeft_zero s.sr).symm
  | succ n ih =>
    rw [times, List.singleton_append, runOps, ih, tick_DS_sr, ← BitVec.shiftLeft_add, Nat.add_comm]

/-- Settles O10: the deciding bit picks the branch of `DS` and of `DA`, and eight shifts leave nothing of a byte. -/
theorem conditionalLineOperations : Obligations.ConditionalLineOperations := by
  refine ⟨fun s => ⟨fun h => ?_, fun h => ?_⟩, fun s => ?_, fun s => ⟨fun h => ?_, fun h => ?_⟩⟩
  · rw [opDS_eq, show srTop s = true from h]
    rfl
  · rw [opDS_eq, show srTop s = false from h]
    rfl
  · rw [sr_runOps_times_DS]
    exact BitVec.shiftLeft_eq_zero (Nat.le_refl 8)
  · rw [opDA_eq, show ackOperand s = true from h]
    rfl
  · rw [opDA_eq, show ackOperand s = false from h]
    rfl

/-- A sample is inserted as a one-bit word. -/
theorem shiftIn_eq (v : Byte) (b : Bool) : shiftIn v b = (v <<< 1) ||| (BitVec.ofBool b).zeroExtend 8 := by
  cases b <;> rfl

/-- Eight samples replace a byte, the first of them in bit 7 (R114). -/
theorem bitsMsbFirst_foldl_shiftIn (v : Byte) (s1 s2 s3 s4 s5 s6 s7 s8 : Bool) :
    bitsMsbFirst ([s1, s2, s3, s4, s5, s6, s7, s8].foldl shiftIn v) = [s1, s2, s3, s4, s5, s6, s7, s8] := by
  simp [bitsMsbFirst, shiftIn_getLsbD, -BitVec.getLsbD_eq_getElem]

/-- Settles O11: `SMA` and `SMD` take the level of the data line, and each insertion moves the earlier samples up by one. -/
theorem samplesReadTheDataLine : Obligations.SamplesReadTheDataLine := by
  refine ⟨fun s _ => ⟨rfl, ?_, fun hd => ⟨?_, ?_⟩⟩, bitsMsbFirst_foldl_shiftIn⟩
  · rw [opSMD, shiftIn_eq, sampleSda_eq_level]
  · rw [opSMA, sampleSda_released s hd]
    exact Bool.not_not _
  · rw [opSMD, sampleSda_released s hd]
    exact shiftIn_getLsbD s.sr _ (by decide)

end Sys2Proof.Machine
end

section
/-! SUPPORT. The framing commands: what a write to `CMD` does (R96), the micro-program table (R97), `INIT` on the port
(R101). -/

namespace Sys2Proof.Machine

/-! ### A write to `CMD` (R96) -/

/-- An idle engine out of reset launches the command of a legal word, whatever its configuration. -/
theorem writeCmd_legal {w : Word} {i : Instr} {s : State} (hr : s.rst = false) (hb : s.busy = false)
    (hd : decode w = .legal i) : writeCmd w s = launch i w s := by
  simp only [writeCmd, hr, hb, hd, Bool.false_eq_true, if_false]

/-- An idle engine out of reset turns an illegal word away with its flag. -/
theorem writeCmd_illegal {w : Word} {why : Illegal} {s : State} (hr : s.rst = false) (hb : s.busy = false)
    (hd : decode w = .illegal why) : writeCmd w s = { s with errIll := true } := by
  simp only [writeCmd, hr, hb, hd, Bool.false_eq_true, if_false, raise]

/-- A launch writes nothing that a line level is made of. -/
@[simp] theorem levels_launch (i : Instr) (w : Word) (s : State) : levels (launch i w s) = levels s := rfl

/-- Settles O14: the busy test, then the decoder, pick the one branch of the write. -/
theorem cmdWriteLaunchesOrRaises : Obligations.CmdWriteLaunchesOrRaises := by
  refine fun w s hr => ⟨writeCmd_busy w hr, fun hb _ => writeCmd_illegal hr hb, fun hb i hd => ?_⟩
  rw [writeCmd_legal hr hb hd]
  refine ⟨?_, levels_launch i w s⟩
  cases i <;> rfl

/-! ### The micro-program table (R97) -/

/-- `X × n` is the concatenation of `n` copies of `X`. -/
theorem times_eq_flatten_replicate (n : Nat) (xs : List MicroOp) : times n xs = (List.replicate n xs).flatten := by
  induction n with
  | zero => rfl
  | succ n ih => rw [times, ih, List.replicate_succ, List.flatten_cons]

/-- `CMDR[0]` of a `RECV` is its acknowledge operand (R66). -/
theorem getLsbD_zero_encode_recv (a : Bool) : (encode (.recv a)).getLsbD 0 = a := by
  cases a <;> rfl

/-- The settle delays of a command, counted over its micro-program for either value of `CMDR[0]`, which matters to the `DA`
of `RECV` alone. -/
theorem sum_settlesOf_microprogram (i : Instr) (ack : Bool) :
    ((microprogram i).map (settlesOf ack)).sum =
      (match i with | .init => 1 | .start => 1 | .stop => 4 | .send _ => 27 | .recv _ => if ack then 20 else 19) := by
  cases i with
  | init | start | stop => rfl
  | send v => simp [microprogram, microSend, times, settlesOf]
  | recv a => cases ack <;> rfl

/-- Settles O17: the repeated cells of `SEND` and `RECV` are `times`, and the counts are read off the lists. -/
theorem microProgramTable : Obligations.MicroProgramTable := by
  refine ⟨rfl, rfl, rfl, fun v => ?_, fun a => ?_, fun i => ?_, fun i => ?_⟩
  · rw [← times_eq_flatten_replicate]
    rfl
  · rw [← times_eq_flatten_replicate]
    rfl
  · cases i <;> rfl
  · rw [sum_settlesOf_microprogram]
    cases i with
    | init | start | stop | send v => rfl
    | recv a => rw [getLsbD_zero_encode_recv]

/-! ### `INIT` on the port (R101) -/

/-- The engine is ready again when a command it was ready for has completed. -/
theorem ready_of_exec {i : Instr} {s t : State} (h : Ready s) (he : exec i s = .next t) : Ready t := by
  rw [exec_ready i h, runOps_frame] at he
  cases he
  exact ⟨h.wf, h.released, rfl⟩

/-- `INIT` clears the engine's two bits of both port registers. -/
theorem exec_init_port {s : State} (h : Ready s) :
    ∃ t, exec .init s = .next t ∧ t.cfg = s.cfg ∧
      t.dir = s.dir &&& ~~~(sdaBit s ||| sclBit s) ∧ t.out = s.out &&& ~~~(sdaBit s ||| sclBit s) :=
  ⟨_, exec_ready .init h, rfl, rfl, rfl⟩

/-- `OC` stands in the micro-program of `INIT` alone. -/
theorem OC_not_mem_microprogram {i : Instr} (h : i ≠ .init) : MicroOp.OC ∉ microprogram i := by
  cases i with
  | init => exact absurd rfl h
  | start | stop | send v | recv a => simp [microprogram, microStart, microStop, microSend, microRecv, times]

/-- No command but `INIT` writes `OUT`, whether it runs or is turned away. -/
theorem out_of_exec {i : Instr} {s t : State} (hi : i ≠ .init) (he : exec i s = .next t) : t.out = s.out := by
  obtain ⟨-, h⟩ | ⟨-, -, h⟩ | ⟨-, -, -, h⟩ | ⟨-, h⟩ := exec_cases i s <;> rw [h] at he <;> cases he
  · rfl
  · rfl
  · exact out_runOps _ _ (OC_not_mem_microprogram hi)

/-- Settles O25: the second `INIT` masks out of each register the two bits that the first has already cleared. -/
theorem initIsIdempotent : Obligations.InitIsIdempotent := by
  refine ⟨fun s hs => ?_, fun i s t hi he => out_of_exec hi he⟩
  obtain ⟨t, ht, hcfg, hdir, hout⟩ := exec_init_port hs
  obtain ⟨u, hu, -, hdir', hout'⟩ := exec_init_port (ready_of_exec hs ht)
  have hmask : sdaBit t ||| sclBit t = sdaBit s ||| sclBit s := by rw [sdaBit, sclBit, hcfg]; rfl
  refine ⟨t, u, ht, hu, ?_, ?_, hdir, hout⟩
  · rw [hdir', hmask, hdir, BitVec.and_assoc, BitVec.and_self]
  · rw [hout', hmask, hout, BitVec.and_assoc, BitVec.and_self]

end Sys2Proof.Machine
end

section
/-! SUPPORT. The two `DIR` bits at the end of a command (R116): the clock bit follows the micro-program, and the data bit is
decided by the operations after the last `DS`. -/

namespace Sys2Proof.Machine

/-- The end of a list decides the data bit by `dataAfter` if no `DS` stands in it, whatever stands before. -/
theorem sdaDriven_runOps_append (xs ys : List MicroOp) (s : State) (h : s.cfg.wf = true) (hd : MicroOp.DS ∉ ys) :
    sdaDriven (runOps (xs ++ ys) s) = dataAfter (ackOperand s) ys (sdaDriven (runOps xs s)) := by
  have ha : ackOperand (runOps xs s) = ackOperand s := by rw [ackOperand, runOps_cmdr, ackOperand]
  rw [runOps_append, sdaDriven_runOps ys _ (by rwa [runOps_cfg]) hd, ha]

/-- Every micro-program but that of `START` releases the clock, from either clock bit. -/
theorem clockAfter_microprogram {i : Instr} (h : i ≠ .start) (c : Bool) : clockAfter (microprogram i) c = false := by
  cases i with
  | start => exact absurd rfl h
  | init | stop | send v | recv a => rfl

/-- A command's micro-program leaves the data line as `holdsData` says, from either data bit: `SEND` ends with the `DR` of its
acknowledge cell, `RECV` with the `DA` that `CMDR[0]` decides. -/
theorem sdaDriven_runOps_microprogram {i : Instr} {s : State} (h : s.cfg.wf = true) (hw : s.cmdr = encode i) :
    sdaDriven (runOps (microprogram i) s) = holdsData i := by
  cases i with
  | init | start | stop => exact sdaDriven_runOps _ s h (by decide)
  | send v => exact sdaDriven_runOps_append (times 8 [.CL, .DS, .CR]) [.CL, .DR, .CR, .SMA] s h (by decide)
  | recv a =>
    have ha : ackOperand s = a := by rw [ackOperand, hw, getLsbD_zero_encode_recv]
    rw [microprogram, sdaDriven_runOps microRecv s h (by decide), ha]
    cases a <;> rfl

/-- What a whole command makes of the two `DIR` bits and of the record of the contract. -/
theorem exec_dirBits (i : Instr) {s : State} (h : Ready s) :
    ∃ t, exec i s = .next t ∧ sclDriven t = clockAfter (microprogram i) (sclDriven s) ∧ sdaDriven t = holdsData i ∧
      t.viol = (s.viol || breaksContract i s) := by
  refine ⟨_, exec_ready i h, ?_, ?_, ?_⟩
  · exact sclDriven_runOps (microprogram i) (launch i (encode i) s) h.wf
  · exact sdaDriven_runOps_microprogram (s := launch i (encode i) s) h.wf rfl
  · rw [runOps_frame]
    rfl

/-- A `START` within the contract finds the clock released (R38). -/
theorem sclDriven_of_start_allowed {s : State} (h : breaksContract .start s = false) : sclDriven s = false := by
  rw [breaksContract, Bool.or_eq_false_iff, Bool.or_eq_false_iff] at h
  obtain ⟨⟨-, hclock⟩, -⟩ := h
  exact hclock

/-- Settles O24: every command but `START` releases the clock; `START` keeps the clock bit, which is 1 at its launch only if
the contract is broken. -/
theorem endStates : Obligations.EndStates := by
  intro i s hs
  obtain ⟨t, ht, hscl, hsda, hviol⟩ := exec_dirBits i hs
  refine ⟨t, ht, ?_⟩
  cases i with
  | start =>
    refine ⟨hscl, hsda, fun hkept => ?_⟩
    obtain ⟨-, hallowed⟩ := Bool.or_eq_false_iff.1 (hviol.symm.trans hkept)
    exact hscl.trans (sclDriven_of_start_allowed hallowed)
  | init | stop | send v | recv a => exact ⟨hscl.trans (clockAfter_microprogram (by simp) _), hsda⟩

end Sys2Proof.Machine
end

section
/-! SUPPORT. The two error flags (R137, R141): a write to `CMD` raises one, the assertion of reset alone clears them, and
nothing the engine does reads them. -/

namespace Sys2Proof.Machine

/-! ### Raising `ERR_ILL` (R137) -/

/-- A write at `HOST_BASE` is a write to `CMD` (R27, R28). -/
theorem hostWrite_hostBase (w : Word) (s : State) : hostWrite s.cfg.hostBase w s = .next (writeCmd w s) := by
  rw [hostWrite, hostReg, if_pos rfl]

/-- Calling an illegal word only writes it to `CMD`. -/
theorem hostCall_illegal {w : Word} {why : Illegal} (s : State) (hd : decode w = .illegal why) :
    hostCall w s = .next (writeCmd w s) := by
  rw [hostCall, hd]

/-- Settles O28: a write at `HOST_BASE` and a call are both the write to `CMD`, which only raises the flag. -/
theorem illegalCmdSetsItsFlagOnly : Obligations.IllegalCmdSetsItsFlagOnly := by
  intro w why s _ hr hb hd
  rw [hostWrite_hostBase, hostCall_illegal s hd, writeCmd_illegal hr hb hd]
  exact ⟨rfl, rfl, rfl⟩

/-! ### The flags are sticky (R141) -/

/-- Neither error flag that is set in `s` is clear in `t`. -/
def KeepsErrorFlags (s t : State) : Prop :=
  (s.errIll = true → t.errIll = true) ∧ (s.errOvr = true → t.errOvr = true)

/-- Flags that are unchanged are kept. -/
theorem KeepsErrorFlags.of_eq {s t : State} (hill : t.errIll = s.errIll) (hovr : t.errOvr = s.errOvr) :
    KeepsErrorFlags s t :=
  ⟨hill.trans, hovr.trans⟩

/-- An asserted reset input makes a write to `CMD` without effect (R151). -/
theorem writeCmd_rst (w : Word) {s : State} (hr : s.rst = true) : writeCmd w s = s := by
  rw [writeCmd, if_pos hr]

/-- A write to `CMD` keeps the flags: it is ignored, raises one of them, or launches. -/
theorem keepsErrorFlags_writeCmd (w : Word) (s : State) : KeepsErrorFlags s (writeCmd w s) := by
  cases hr : s.rst with
  | true => rw [writeCmd_rst w hr]; exact .of_eq rfl rfl
  | false =>
    cases hb : s.busy with
    | true => rw [writeCmd_busy w hr hb]; exact ⟨id, fun _ => rfl⟩
    | false =>
      cases hd : decode w with
      | illegal why => rw [writeCmd_illegal hr hb hd]; exact ⟨fun _ => rfl, id⟩
      | legal i => rw [writeCmd_legal hr hb hd]; exact .of_eq rfl rfl

/-- A command keeps the flags, whether it runs or is turned away. -/
theorem keepsErrorFlags_of_exec {i : Instr} {s t : State} (he : exec i s = .next t) : KeepsErrorFlags s t := by
  obtain ⟨-, h⟩ | ⟨-, -, h⟩ | ⟨-, -, -, h⟩ | ⟨-, h⟩ := exec_cases i s <;> rw [h] at he <;> cases he
  · exact .of_eq rfl rfl
  · exact ⟨id, fun _ => rfl⟩
  · rw [runOps_frame]
    exact .of_eq rfl rfl

/-- An engine step keeps the flags. -/
theorem keepsErrorFlags_of_engineStep {s t : State} (he : engineStep s = .next t) : KeepsErrorFlags s t := by
  obtain ⟨-, h⟩ | ⟨-, h⟩ | ⟨i, m, -, -, -, ⟨-, h⟩ | ⟨-, h⟩⟩ := engineStep_cases s <;>
    rw [h] at he <;> cases he
  · exact .of_eq rfl rfl
  · rw [tick_frame]
    exact .of_eq rfl rfl
  · rw [tick_frame]
    exact .of_eq rfl rfl

/-- What the host stores after a line touches neither flag. -/
theorem keepsErrorFlags_eeStore (k : EeTask) (s : State) : KeepsErrorFlags s (eeStore k s) := by
  cases k <;> exact .of_eq rfl rfl

/-- Every effect but the assertion of reset keeps the flags. -/
theorem keepsErrorFlags_of_effect {a : List Move} {s t : State} (h : Effect a s t)
    (ha : ∀ rest, a ≠ .rst true :: rest) : KeepsErrorFlags s t := by
  cases h with
  | idle | read | host | env | couserRead => exact .of_eq rfl rfl
  | ran i he => exact keepsErrorFlags_of_exec he
  | wrote w => exact keepsErrorFlags_writeCmd w s
  | ticked he => exact keepsErrorFlags_of_engineStep he
  | line i k next he =>
    obtain ⟨hill, hovr⟩ := keepsErrorFlags_of_exec he
    obtain ⟨hill', hovr'⟩ := keepsErrorFlags_eeStore k _
    exact ⟨hill' ∘ hill, hovr' ∘ hovr⟩
  | couserWrite r bits v => cases r <;> exact .of_eq rfl rfl
  | rst b rest hb =>
    cases b with
    | true => exact absurd hb (ha rest)
    | false => exact .of_eq rfl rfl

/-! ### The flags gate nothing (R141) -/

/-- A micro-operation runs the same whatever the flags hold. -/
theorem tick_errorFlags (m : MicroOp) (x y : Bool) (s : State) :
    tick m { s with errIll := x, errOvr := y } = { tick m s with errIll := x, errOvr := y } := by
  cases m with
  | DS => simp only [tick, execMicro, opDS_eq]; rfl
  | DA => simp only [tick, execMicro, opDA_eq]; rfl
  | CL | CR | DL | DR | SMA | SMD | IR | OC => rfl

/-- So does a list of micro-operations. -/
theorem runOps_errorFlags (ms : List MicroOp) (x y : Bool) (s : State) :
    runOps ms { s with errIll := x, errOvr := y } = { runOps ms s with errIll := x, errOvr := y } := by
  induction ms generalizing s with
  | nil => rfl
  | cons m ms ih => rw [runOps, tick_errorFlags, ih, runOps]

/-- A launch records the contract, not the flags (R96). -/
theorem launch_errorFlags (i : Instr) (w : Word) (x y : Bool) (s : State) :
    launch i w { s with errIll := x, errOvr := y } = { launch i w s with errIll := x, errOvr := y } := rfl

/-- Completion commits from the sequencer's registers alone (R92). -/
theorem complete_errorFlags (i : Instr) (x y : Bool) (s : State) :
    complete i { s with errIll := x, errOvr := y } = { complete i s with errIll := x, errOvr := y } := rfl

/-- Settles O30: every effect but the assertion of reset keeps the flags, and launch, micro-program and completion each run
the same whatever the flags hold. -/
theorem errorFlagsAreStickyAndGateNothing : Obligations.ErrorFlagsAreStickyAndGateNothing := by
  refine ⟨fun s t hstep hrst => ?_, fun i s x y hs => ⟨_, exec_ready i hs, ?_⟩⟩
  · obtain ⟨-, rest, heffect⟩ := step_effect hstep
    -- taking the move off the agenda leaves the flags
    have hkeeps : KeepsErrorFlags { s with agenda := rest } t := keepsErrorFlags_of_effect heffect hrst
    exact hkeeps
  · have hs' : Ready { s with errIll := x, errOvr := y } := ⟨hs.wf, hs.released, hs.idle⟩
    rw [exec_ready i hs', launch_errorFlags, runOps_errorFlags, complete_errorFlags]

end Sys2Proof.Machine
end

section
/-! SUPPORT. The reset input (R151): its two moves, and what a command is while it is asserted. -/

namespace Sys2Proof.Machine

/-- Moving the reset input always answers. -/
theorem perform_rst (b : Bool) (s : State) : perform (.rst b) s = .next (setRst b s) := rfl

/-- The assertion sets the engine's registers and the ghost state, and raises the level. -/
theorem setRst_true (s : State) : setRst true s = { resetEngine s with rst := true } := rfl

/-- The release lowers the level alone. -/
theorem setRst_false (s : State) : setRst false s = { s with rst := false } := rfl

/-- A command called while the reset input is asserted does nothing: its write to `CMD` is ignored. -/
theorem exec_rst (i : Instr) {s : State} (hw : s.cfg.wf = true) (hr : s.rst = true) : exec i s = .next s := by
  rw [exec_eq_command, command, if_pos hw, hr, Bool.true_or, if_pos rfl, writeCmd_rst _ hr]

/-- Settles O48: the values are those of `resetEngine`, an asserted level turns away writes and calls, and the release lowers
the level alone. -/
theorem assertingResetClearsTheEngineOnly : Obligations.AssertingResetClearsTheEngineOnly := by
  intro s
  have hasserted : (setRst true s).rst = true := by rw [setRst_true]
  refine ⟨setRst true s, perform_rst true s, rfl, rfl, rfl, rfl, rfl, rfl, rfl, rfl, rfl, rfl, rfl, rfl, rfl, rfl, rfl,
    ?ignoresWrites, ?ignoresCalls, ?release, ?afterRelease⟩
  case ignoresWrites => exact fun w => writeCmd_rst w hasserted
  case ignoresCalls => exact fun i hwf => exec_rst i hwf hasserted
  case release => exact fun r => by rw [perform_rst, setRst_false]
  case afterRelease => exact ⟨_, perform_rst false _, rfl, rfl, rfl, rfl, rfl, rfl, rfl, rfl, rfl, rfl, rfl⟩

end Sys2Proof.Machine
end

section
/-! SUPPORT. The opcode map read field by field (R64, R67, R68): which words a row selects, and which words no row does. -/

namespace Sys2Proof

/-! ### Rows (R67) -/

/-- The operand bits that a format reserves: those its mask tests. -/
def Format.reserved : Format → Byte
  | .W0 => 0xFF#8
  | .W8 => 0x00#8
  | .W1 => 0xFE#8

/-- The opcode field of a row's `match` is the opcode, that of its `mask` all ones. -/
theorem opField_row (i : Instr) : opField (rowMatch i) = i.opcode ∧ opField (rowMask i) = BitVec.allOnes 8 := by
  cases i <;> exact ⟨by rw [rowMatch]; rfl, by rw [rowMask]; rfl⟩

/-- The operand field of a row's `match` is 0, that of its `mask` the reserved bits. -/
theorem argField_row (i : Instr) : argField (rowMatch i) = 0#8 ∧ argField (rowMask i) = i.format.reserved := by
  cases i <;> exact ⟨by rw [rowMatch]; rfl, by rw [rowMask]; rfl⟩

/-- Rows of one opcode have one `match`. -/
theorem rowMatch_eq_of_opcode {i j : Instr} (h : i.opcode = j.opcode) : rowMatch i = rowMatch j := by
  obtain ⟨hi, -⟩ := opField_row i
  obtain ⟨hj, -⟩ := opField_row j
  obtain ⟨hi', -⟩ := argField_row i
  obtain ⟨hj', -⟩ := argField_row j
  exact word_ext (by rw [hi, hj, h]) (by rw [hi', hj'])

/-- A format admits the operand bytes whose reserved bits are all 0. -/
theorem admits_iff (f : Format) (b : Byte) : f.admits b = true ↔ b &&& f.reserved = 0#8 := by
  cases f <;> revert b <;> decide

/-- A row selects the words with its opcode and an operand byte that its format admits. -/
theorem rowSelects_iff (i : Instr) (w : Word) :
    rowSelects i w = true ↔ opField w = i.opcode ∧ i.format.admits (argField w) = true := by
  obtain ⟨hop, hopMask⟩ := opField_row i
  obtain ⟨harg, hargMask⟩ := argField_row i
  have hopAnd : opField (w &&& rowMask i) = opField w := by
    rw [opField, BitVec.extractLsb'_and, ← opField, ← opField, hopMask, BitVec.and_allOnes]
  have hargAnd : argField (w &&& rowMask i) = argField w &&& i.format.reserved := by
    rw [argField, BitVec.extractLsb'_and, ← argField, ← argField, hargMask]
  rw [rowSelects, beq_iff_eq, admits_iff, ← hop, ← harg, ← hargAnd, ← hopAnd]
  exact ⟨fun h => h ▸ ⟨rfl, rfl⟩, fun ⟨h, h'⟩ => word_ext h h'⟩

/-- Every operand byte that a row's format admits is that of a command of the row. -/
theorem exists_arg_of_admits {i : Instr} {b : Byte} (h : i.format.admits b = true) :
    ∃ j : Instr, j.opcode = i.opcode ∧ j.arg = b := by
  cases i with
  | init => exact ⟨.init, rfl, (beq_iff_eq.1 h).symm⟩
  | start => exact ⟨.start, rfl, (beq_iff_eq.1 h).symm⟩
  | stop => exact ⟨.stop, rfl, (beq_iff_eq.1 h).symm⟩
  | send v => exact ⟨.send b, rfl, rfl⟩
  | recv a => exact ⟨.recv (b.getLsbD 0), rfl, (byte_eq_flag (beq_iff_eq.1 h)).symm⟩

/-- Settles O1: the two fields of `encode i` are the command's own. -/
theorem encodeThenDecode : Obligations.EncodeThenDecode := fun i _ => decode_encode i

/-- Settles O3: selection is membership of the two fields in the row, and rows differ in their opcodes. -/
theorem tableRowsSelectTheCommand : Obligations.TableRowsSelectTheCommand := by
  refine fun w => ⟨fun i hd => ?_, fun i hi => ?_, fun i j hi hj => ?_⟩
  · obtain rfl := decode_eq_legal_iff.1 hd
    obtain ⟨hselects, -, -⟩ := tableRow_statement i
    exact hselects
  · obtain ⟨hop, hadmits⟩ := (rowSelects_iff i w).1 hi
    obtain ⟨j, hjop, hjarg⟩ := exists_arg_of_admits hadmits
    exact ⟨j, decode_of_fields (hop.trans hjop.symm) hjarg.symm, rowMatch_eq_of_opcode hjop⟩
  · obtain ⟨hiop, -⟩ := (rowSelects_iff i w).1 hi
    obtain ⟨hjop, -⟩ := (rowSelects_iff j w).1 hj
    exact rowMatch_eq_of_opcode (hiop.symm.trans hjop)

/-! ### Illegal words (R68) -/

/-- The opcode is one that R67 does not list, or one of its five. -/
theorem opcode_cases (op : Byte) :
    (op = 0x00#8 ∨ 0x06#8 ≤ op) ∨ op = 0x01#8 ∨ op = 0x02#8 ∨ op = 0x03#8 ∨ op = 0x04#8 ∨ op = 0x05#8 := by
  revert op; decide

/-- A branch of the decoder that tests the operand byte answers an illegal word exactly when the test fails. -/
theorem exists_illegal_ite (p : Prop) [Decidable p] (i : Instr) (r : Illegal) :
    (∃ why, (if p then Decoded.legal i else .illegal r) = .illegal why) ↔ ¬p := by
  by_cases h : p <;> simp [h]

/-- Settles O4: case by case over the opcode, what the branch of the decoder tests of the operand byte. -/
theorem illegalWordsAreThoseListed : Obligations.IllegalWordsAreThoseListed := by
  intro w
  obtain (h | h) | h | h | h | h | h := opcode_cases (opField w)
  · simp [decode, h]
  · have hne : ∀ b < 0x06#8, opField w ≠ b := fun b hb he => absurd (he ▸ h) (by bv_omega)
    simp [decode, h, hne]
  · simp [decode, h, exists_illegal_ite]
  · simp [decode, h, exists_illegal_ite]
  · simp [decode, h, exists_illegal_ite]
  · simp [decode, h]
  · simp [decode, h, exists_illegal_ite]

/-- Settles O5: each word, decoded. -/
theorem writtenOutWordsDecode : Obligations.WrittenOutWordsDecode := by
  refine ⟨?_, ?_, ?_, ?_, ?_, ?_, ?_⟩ <;> decide

end Sys2Proof
end

section
/-! SUPPORT. The pins of the port bit by bit: masked writes (R48), levels (R34), the two lines released and their latch bits
cleared (R89), and a line driven with its latch bit at 1 (R163). -/

namespace Sys2Proof.Machine

/-! ### The mask of both lines -/

/-- The mask of the engine's two bits. -/
theorem getLsbD_bits (p q r : Nat) :
    (bit p ||| bit q).getLsbD r = (decide (r < 8) && (decide (p = r) || decide (q = r))) := by
  rw [BitVec.getLsbD_or, getLsbD_bit, getLsbD_bit, Bool.and_or_distrib_left]

/-- Clearing both bits clears the first. -/
theorem getLsbD_clr_bits_left (v : Port) (p q : Nat) : (v &&& ~~~(bit p ||| bit q)).getLsbD p = false := by
  rw [BitVec.getLsbD_and, BitVec.getLsbD_not, getLsbD_bits]
  by_cases hp : p < 8 <;> simp [hp]

/-- Clearing both bits clears the second. -/
theorem getLsbD_clr_bits_right (v : Port) (p q : Nat) : (v &&& ~~~(bit p ||| bit q)).getLsbD q = false := by
  rw [BitVec.getLsbD_and, BitVec.getLsbD_not, getLsbD_bits]
  by_cases hq : q < 8 <;> simp [hq]

/-- Clearing both bits keeps every other. -/
theorem getLsbD_clr_bits_other (v : Port) {p q r : Nat} (hp : r ≠ p) (hq : r ≠ q) :
    (v &&& ~~~(bit p ||| bit q)).getLsbD r = v.getLsbD r := by
  by_cases hr : r < 8
  · rw [BitVec.getLsbD_and, BitVec.getLsbD_not, getLsbD_bits]
    simp [hp.symm, hq.symm, hr]
  · rw [BitVec.getLsbD_of_ge _ _ (Nat.le_of_not_lt hr), BitVec.getLsbD_of_ge _ _ (Nat.le_of_not_lt hr)]

/-- Port registers that agree on the engine's two bits and on every other are the same. -/
theorem port_ext {v w : Port} (p q : Nat) (hp : v.getLsbD p = w.getLsbD p) (hq : v.getLsbD q = w.getLsbD q)
    (hother : ∀ r, r ≠ p → r ≠ q → v.getLsbD r = w.getLsbD r) : v = w := by
  apply BitVec.eq_of_getLsbD_eq
  intro r _
  by_cases hrp : r = p
  · rwa [hrp]
  · by_cases hrq : r = q
    · rwa [hrq]
    · exact hother r hrp hrq

/-! ### Port access and levels -/

/-- Settles O6: each access is a masked write of the one register. -/
theorem portAccessChangesTheMaskOnly : Obligations.PortAccessChangesTheMaskOnly := by
  intro m s q hq
  rw [portClr_dir, portSet_dir, portClr_out, portSet_out]
  have hclr (v : Port) : (v &&& ~~~m).getLsbD q = (v.getLsbD q && !m.getLsbD q) := by
    rw [BitVec.getLsbD_and, BitVec.getLsbD_not, decide_eq_true hq, Bool.true_and]
  exact ⟨hclr s.dir, BitVec.getLsbD_or, hclr s.out, BitVec.getLsbD_or, rfl, rfl, rfl, rfl⟩

/-- Settles O8: bit `p` of `IN` is the level, and the level is the line of R34's table that `DIR`, `OUT` and the environment
name. -/
theorem inputFollowsTheLevels : Obligations.InputFollowsTheLevels :=
  fun s _ hp => ⟨inputValue_getLsbD s hp, rfl, rfl, rfl, level_drivenLow, level_released, level_drivenHigh⟩

/-! ### `IR` and `OC` (R89) -/

/-- Two released lines are left to the environment. -/
theorem levels_released {s : State} (hscl : sclDriven s = false) (hsda : sdaDriven s = false) :
    levels s = { c := !envLow s s.cfg.sclIdx, d := !envLow s s.cfg.sdaIdx } := by
  rw [levels, level_released hscl, level_released hsda]

/-- A micro-operation writes `OUT` only if it is `OC`. -/
theorem out_execMicro {m : MicroOp} (s : State) (h : m ≠ .OC) : (execMicro m s).out = s.out := by
  cases m with
  | OC => exact absurd rfl h
  | DS => rw [execMicro, opDS_eq]
  | DA => rw [execMicro, opDA_eq]
  | CL | CR | DL | DR | SMA | SMD | IR => rfl

/-- Settles O12: both operations clear the engine's two bits of their register, and a released line does not show its latch
bit. -/
theorem initialisationOperations : Obligations.InitialisationOperations := by
  refine ⟨fun s => ⟨opIR_eq s, opOC_eq s, ?dirAgain, portClr_portClr .out _ s⟩,
    fun s _ => ?levels, fun s q hsda hscl => ?others, fun m s => out_execMicro s⟩
  case dirAgain =>
    have hagain := portClr_portClr .dir (sdaBit s ||| sclBit s) s
    exact congrArg (·.dir) hagain
  case levels =>
    have hscl : sclDriven (opIR s) = false := getLsbD_clr_bits_right s.dir s.cfg.sdaIdx s.cfg.sclIdx
    have hsda : sdaDriven (opIR s) = false := getLsbD_clr_bits_left s.dir s.cfg.sdaIdx s.cfg.sclIdx
    exact (levels_released (s := opOC (opIR s)) hscl hsda).trans (levels_released hscl hsda).symm
  case others => exact ⟨getLsbD_clr_bits_other s.dir hsda hscl, getLsbD_clr_bits_other s.out hsda hscl⟩

/-! ### A latch bit at 1 (R163) -/

/-- Driving a line with its latch bit at 1 leaves it high where nothing pulls it. -/
theorem level_driven_latchOne {s : State} {p : Nat} (hp : p < 8) (ho : s.out.getLsbD p = true)
    (he : envLow s p = false) : level (settle (portSet .dir (bit p) s)) p = true :=
  level_drivenHigh (getLsbD_set_same s.dir hp) ho he

/-- Settles O13: `CL`, `DL` and `DS` of a 0 bit drive their line. -/
theorem latchOneDrivesHigh : Obligations.LatchOneDrivesHigh := by
  intro s hwf
  obtain ⟨hsda, hscl, hne, -⟩ := (Config.wf_iff _).1 hwf
  rw [← envLow_scl s hne, ← envLow_sda s]
  refine ⟨level_driven_latchOne hscl, level_driven_latchOne hsda, fun ho he htop => ?_⟩
  have hds : opDS s = { settle (portSet .dir (sdaBit s) s) with sr := shiftLeft1 s.sr } := by
    rw [opDS, htop]
    rfl
  rw [hds]
  exact level_driven_latchOne hsda ho he

end Sys2Proof.Machine
end

section
/-! SUPPORT. The five commands (R98 to R100, R106, R111): the whole next state of each, put together from what its
micro-program does to each register. -/

namespace Sys2Proof.Machine

/-! ### What a list of micro-operations does to `SR`, `ackbit` and the latch -/

/-- A list without `SMD` shifts `SR` left once for each `DS` (R84, R117). -/
theorem sr_runOps {ms : List MicroOp} (h : MicroOp.SMD ∉ ms) (s : State) :
    (runOps ms s).sr = s.sr <<< ms.count .DS := by
  induction ms generalizing s with
  | nil => exact (BitVec.shiftLeft_zero s.sr).symm
  | cons m ms ih =>
    rw [List.mem_cons, not_or] at h
    obtain ⟨hm, hms⟩ := h
    rw [runOps, ih hms]
    cases m with
    | SMD => exact absurd rfl hm
    | DS => rw [tick_DS_sr, List.count_cons_self, ← BitVec.shiftLeft_add, Nat.add_comm]
    | DA => rw [List.count_cons_of_ne (by decide), tick, execMicro, opDA_eq, envMove_sr]
    | CL | CR | DL | DR | SMA | IR | OC => rw [List.count_cons_of_ne (by decide)]; rfl

/-- A list without `SMA` keeps `ackbit` (R86). -/
theorem ackbit_runOps {ms : List MicroOp} (h : MicroOp.SMA ∉ ms) (s : State) :
    (runOps ms s).ackbit = s.ackbit := by
  induction ms generalizing s with
  | nil => rfl
  | cons m ms ih =>
    rw [List.mem_cons, not_or] at h
    obtain ⟨hm, hms⟩ := h
    rw [runOps, ih hms]
    cases m with
    | SMA => exact absurd rfl hm
    | DS => rw [tick, execMicro, opDS_eq]; rfl
    | DA => rw [tick, execMicro, opDA_eq]; rfl
    | CL | CR | DL | DR | SMD | IR | OC => rfl

/-- A list leaves every bit of `OUT` that is neither line's (R26). -/
theorem out_runOps_other (ms : List MicroOp) (s : State) {q : Nat} (h1 : q ≠ s.cfg.sdaIdx) (h2 : q ≠ s.cfg.sclIdx) :
    (runOps ms s).out.getLsbD q = s.out.getLsbD q := by
  induction ms generalizing s with
  | nil => rfl
  | cons m ms ih =>
    rw [runOps, ih _ (by rwa [tick_cfg]) (by rwa [tick_cfg])]
    by_cases hm : m = .OC
    · subst hm
      exact getLsbD_clr_bits_other s.out h1 h2
    · rw [tick_out m s hm]

/-- Micro-operations that never drive the data line. -/
def neverDrives (m : MicroOp) : Bool :=
  match m with
  | .DL => false
  | .DS => false
  | .DA => false
  | .CL => true
  | .CR => true
  | .DR => true
  | .SMA => true
  | .SMD => true
  | .IR => true
  | .OC => true

/-- The samples that `SMD` takes of a released data line, given what the environment will do. -/
def releasedSamples : List MicroOp → Env → List Bool
  | [], _ => []
  | m :: ms, e =>
    if m = .SMD then (!e.advance.low.sda) :: releasedSamples ms e.advance else releasedSamples ms e.advance

/-- While the data line stays released the samples of a list are shifted into `SR` one by one (R87, R114). -/
theorem sr_runOps_released {ms : List MicroOp} (hms : ∀ m ∈ ms, neverDrives m = true) {s : State}
    (hwf : s.cfg.wf = true) (hs : sdaDriven s = false) :
    (runOps ms s).sr = (releasedSamples ms s.env).foldl shiftIn s.sr := by
  induction ms generalizing s with
  | nil => rfl
  | cons m ms ih =>
    rw [List.forall_mem_cons] at hms
    obtain ⟨hm, hms⟩ := hms
    have hreleased : sdaDriven (tick m s) = false := by
      rw [sdaDriven_tick m s hwf]
      cases m with
      | DL | DS | DA => cases hm
      | DR | IR => rfl
      | CL | CR | SMA | SMD | OC => exact hs
    rw [runOps, ih hms (by rwa [tick_cfg]) hreleased, tick_env]
    cases m with
    | DL | DS | DA => cases hm
    | CL | CR | DR | SMA | IR | OC => rfl
    | SMD =>
      have hsample : sampleSda (envMove s) = !s.env.advance.low.sda := sampleSda_released (envMove s) hs
      rw [releasedSamples, if_pos rfl, List.foldl_cons, ← hsample]
      rfl

/-! ### The whole state after a command -/

/-- A launched command whose micro-program has run, before completion. -/
def ran (i : Instr) (s : State) : State := runOps (microprogram i) (launch i (encode i) s)

/-- The settle delays of a command (R176). -/
def delaysOf : Instr → Nat
  | .init => 1
  | .start => 1
  | .stop => 4
  | .send _ => 27
  | .recv a => if a then 20 else 19

theorem sum_settlesOf_encode (i : Instr) :
    ((microprogram i).map (settlesOf ((encode i).getLsbD 0))).sum = delaysOf i := by
  rw [sum_settlesOf_microprogram]
  cases i with
  | init | start | stop | send v => rfl
  | recv a => rw [getLsbD_zero_encode_recv, delaysOf]

theorem settles_ran (i : Instr) (s : State) : (ran i s).settles = s.settles + delaysOf i := by
  rw [ran, settles_runOps, ← sum_settlesOf_encode]
  rfl

/-- Everything a command writes. -/
theorem exec_result (i : Instr) {s : State} (h : Ready s) :
    exec i s = .next
      { s with
        cmdr := encode i, sr := (ran i s).sr, upc := 0#5, ackbit := (ran i s).ackbit
        ack := commitAck i { s with ackbit := (ran i s).ackbit }
        rxdata := commitRx i { s with sr := (ran i s).sr }
        dir := (ran i s).dir, out := (ran i s).out, env := Env.after (microprogram i).length s.env
        inited := ghostInited i s, frame := ghostFrame i s, viol := s.viol || breaksContract i s
        settles := s.settles + delaysOf i } := by
  have hidle := h.idle
  rw [exec_ready i h, ← settles_ran, ← ran]
  rw [show ran i s = _ from runOps_frame _ _]
  obtain ⟨⟩ := s
  cases hidle
  cases i <;> rfl

@[simp] theorem ran_cfg (i : Instr) (s : State) : (ran i s).cfg = s.cfg := runOps_cfg (microprogram i) _
@[simp] theorem ran_cmdr (i : Instr) (s : State) : (ran i s).cmdr = encode i := runOps_cmdr (microprogram i) _
@[simp] theorem ran_rst (i : Instr) (s : State) : (ran i s).rst = s.rst := by rw [ran, runOps_frame]; rfl
@[simp] theorem ran_inited (i : Instr) (s : State) : (ran i s).inited = ghostInited i s := by
  rw [ran, runOps_frame]; rfl
@[simp] theorem ran_viol (i : Instr) (s : State) : (ran i s).viol = (s.viol || breaksContract i s) := by
  rw [ran, runOps_frame]; rfl

theorem sclDriven_ran (i : Instr) {s : State} (hwf : s.cfg.wf = true) :
    sclDriven (ran i s) = clockAfter (microprogram i) (sclDriven s) :=
  sclDriven_runOps (microprogram i) (launch i (encode i) s) hwf

theorem sdaDriven_ran (i : Instr) {s : State} (hwf : s.cfg.wf = true) : sdaDriven (ran i s) = holdsData i :=
  sdaDriven_runOps_microprogram (s := launch i (encode i) s) hwf rfl

/-- A command other than `START` leaves the clock released, the data line as `holdsData` says, and every other bit of `DIR` as
it was; which decides `DIR`. -/
theorem dir_ran {i : Instr} {s : State} {v : Port} (hwf : s.cfg.wf = true) (hi : i ≠ .start)
    (hscl : v.getLsbD s.cfg.sclIdx = false) (hsda : v.getLsbD s.cfg.sdaIdx = holdsData i)
    (hother : ∀ q, q ≠ s.cfg.sdaIdx → q ≠ s.cfg.sclIdx → v.getLsbD q = s.dir.getLsbD q) : (ran i s).dir = v := by
  have hdata := sdaDriven_ran i hwf
  have hclock := (sclDriven_ran i hwf).trans (clockAfter_microprogram hi _)
  have hcfg := ran_cfg i s
  rw [sdaDriven, hcfg] at hdata
  rw [sclDriven, hcfg] at hclock
  refine port_ext s.cfg.sdaIdx s.cfg.sclIdx (hdata.trans hsda.symm) (hclock.trans hscl.symm) fun q hq1 hq2 => ?_
  exact (dir_runOps_other (microprogram i) (launch i (encode i) s) hq1 hq2).trans (hother q hq1 hq2).symm

/-- A command that holds no line clears the engine's two bits of `DIR`. -/
theorem dir_ran_releasing {i : Instr} {s : State} (hwf : s.cfg.wf = true) (hi : holdsData i = false) :
    (ran i s).dir = s.dir &&& ~~~(bit s.cfg.sdaIdx ||| bit s.cfg.sclIdx) := by
  have hne : i ≠ .start := fun he => by rw [he] at hi; cases hi
  exact dir_ran hwf hne (getLsbD_clr_bits_right _ _ _) ((getLsbD_clr_bits_left _ _ _).trans hi.symm)
    fun _ => getLsbD_clr_bits_other _

/-- The bits of the port that are neither line's. -/
theorem port_ran_other (i : Instr) (s : State) {q : Nat} (h1 : q ≠ s.cfg.sdaIdx) (h2 : q ≠ s.cfg.sclIdx) :
    (ran i s).dir.getLsbD q = s.dir.getLsbD q ∧ (ran i s).out.getLsbD q = s.out.getLsbD q :=
  ⟨dir_runOps_other (microprogram i) (launch i (encode i) s) h1 h2,
    out_runOps_other (microprogram i) (launch i (encode i) s) h1 h2⟩

/-- `SMA` stands in the micro-program of `SEND` alone. -/
theorem ackbit_ran {i : Instr} (hi : ∀ v, i ≠ .send v) (s : State) : (ran i s).ackbit = s.ackbit := by
  refine ackbit_runOps (ms := microprogram i) ?_ (launch i (encode i) s)
  cases i with
  | send v => exact absurd rfl (hi v)
  | init | start | stop | recv a => simp [microprogram, microInit, microStart, microStop, microRecv, times]

/-- The framing commands load nothing into `SR` and neither shift it nor sample. -/
theorem sr_ran {i : Instr} (hi : ∀ v, i ≠ .send v) (hi' : ∀ a, i ≠ .recv a) (s : State) : (ran i s).sr = s.sr := by
  have hkept (h : MicroOp.SMD ∉ microprogram i) (h' : (microprogram i).count .DS = 0) :
      (ran i s).sr = loadSr i s.sr := by
    rw [ran, sr_runOps h, h', BitVec.shiftLeft_zero, launch]
  cases i with
  | init | start | stop => exact hkept (by decide) rfl
  | send v => exact absurd rfl (hi v)
  | recv a => exact absurd rfl (hi' a)

/-- `OUT` is written by `INIT` alone. -/
theorem out_ran {i : Instr} (hi : i ≠ .init) (s : State) : (ran i s).out = s.out :=
  out_runOps (microprogram i) (launch i (encode i) s) (OC_not_mem_microprogram hi)

/-- Settles O19: the two micro-operations, one after the other. -/
theorem initResult : Obligations.InitResult := by
  intro s hs
  rw [exec_result .init hs]
  rfl

/-- Settles O20: the one micro-operation. -/
theorem startResult : Obligations.StartResult := by
  intro s hs
  rw [exec_result .start hs]
  rfl

/-- Settles O21: of the four micro-operations the last two release the lines. -/
theorem stopResult : Obligations.StopResult := by
  intro s hs
  rw [exec_result .stop hs, dir_ran_releasing hs.wf rfl, sr_ran (by simp) (by simp), ackbit_ran (by simp),
    out_ran (by simp)]
  rfl

/-- An acknowledge sample of the released data line is the environment's pull (R86). -/
theorem ackbit_tick_SMA {s : State} (h : sdaDriven s = false) : (tick .SMA s).ackbit = s.env.advance.low.sda := by
  have hsample : sampleSda (envMove s) = !s.env.advance.low.sda := sampleSda_released (envMove s) h
  show (!sampleSda (envMove s)) = s.env.advance.low.sda
  rw [hsample, Bool.not_not]

/-- The micro-program of `SEND` up to its acknowledge sample. -/
def sendCells : List MicroOp := times 8 [.CL, .DS, .CR] ++ [.CL, .DR, .CR]

theorem microSend_eq : microSend = sendCells ++ [MicroOp.SMA] := rfl

/-- The one acknowledge sample of a `SEND`, its last micro-operation, reads the released data line after the environment's 28th
move. -/
theorem ackbit_ran_send (v : Byte) {s : State} (hwf : s.cfg.wf = true) :
    (ran (.send v) s).ackbit = (Env.after 28 s.env).low.sda := by
  generalize ht : launch (.send v) (encode (.send v)) s = t
  have hwft : t.cfg.wf = true := by rw [← ht]; exact hwf
  have henv : t.env = s.env := by rw [← ht]; rfl
  have hreleased : sdaDriven (runOps sendCells t) = false :=
    sdaDriven_runOps_append (times 8 [.CL, .DS, .CR]) [.CL, .DR, .CR] t hwft (by decide)
  rw [ran, microprogram, microSend_eq, ht, runOps_append, runOps, runOps, ackbit_tick_SMA hreleased, runOps_env, henv,
    Env.after_add 27 1]
  rfl

/-- Settles O22: eight shifts empty `SR`, and the last micro-operation takes the acknowledge sample. -/
theorem sendResult : Obligations.SendResult := by
  intro v s hs
  have hsr : (ran (.send v) s).sr = 0x00#8 :=
    (sr_runOps (ms := microSend) (by decide) _).trans (BitVec.shiftLeft_eq_zero (Nat.le_refl 8))
  rw [exec_result (.send v) hs, dir_ran_releasing hs.wf rfl, hsr, out_ran (by simp), ackbit_ran_send v hs.wf]
  rfl

/-- The micro-program of `RECV` from its `DR`, which releases the data line, to its `DA`. -/
def recvCells : List MicroOp := [MicroOp.CR, .SMD] ++ times 7 [.CL, .CR, .SMD]

theorem microRecv_eq : microRecv = [MicroOp.CL, .DR] ++ (recvCells ++ [MicroOp.CL, .DA, .CR]) := rfl

/-- The samples of a `RECV` are those of its released cells; `SR` is empty before them and kept after them. -/
theorem sr_ran_recv (a : Bool) {s : State} (hwf : s.cfg.wf = true) :
    (ran (.recv a) s).sr = byteOfSamples (recvSamples s.env) := by
  generalize ht : launch (.recv a) (encode (.recv a)) s = t
  have hwft : t.cfg.wf = true := by rw [← ht]; exact hwf
  have henv : t.env = s.env := by rw [← ht]; rfl
  have hempty : t.sr = 0x00#8 := by rw [← ht]; rfl
  have hreleased : sdaDriven (runOps [.CL, .DR] t) = false := sdaDriven_runOps [.CL, .DR] t hwft (by decide)
  have hsamples : releasedSamples recvCells (Env.after 2 s.env) = recvSamples s.env := rfl
  rw [ran, microprogram, microRecv_eq, ht, runOps_append, runOps_append, sr_runOps (by decide),
    sr_runOps_released (by decide) (by rwa [runOps_cfg]) hreleased, sr_runOps (by decide), hempty, runOps_env, henv]
  exact (BitVec.shiftLeft_zero _).trans (congrArg _ hsamples)

/-- Settles O23: the samples fill `SR`, and `DA` decides the data line. -/
theorem recvResult : Obligations.RecvResult := by
  intro a s hs
  obtain ⟨hsda, hscl, hne, -⟩ := (Config.wf_iff _).1 hs.wf
  rw [exec_result (.recv a) hs, sr_ran_recv a hs.wf, out_ran (by simp), ackbit_ran (by simp)]
  cases a with
  | false =>
    rw [dir_ran_releasing hs.wf rfl]
    rfl
  | true =>
    rw [dir_ran (v := (s.dir &&& ~~~bit s.cfg.sclIdx) ||| bit s.cfg.sdaIdx) hs.wf (by simp)]
    · rfl
    · rw [getLsbD_set_other _ hne, getLsbD_clr_same]
    · exact getLsbD_set_same _ hsda
    · intro q hq1 hq2
      rw [getLsbD_set_other _ hq1.symm, getLsbD_clr_other _ hq2.symm]

/-! ### Frame and timing of a command -/

/-- Settles O26: a command that is turned away changes `ERR_OVR` at most; one that runs writes the registers of `exec_result`,
of which its micro-program changes only those that its micro-operations write. -/
theorem commandFrame : Obligations.CommandFrame := by
  intro i s t he
  obtain ⟨-, h⟩ | ⟨-, -, h⟩ | ⟨-, -, hb, h⟩ | ⟨hs, -⟩ := exec_cases i s
  · rw [h] at he
    cases he
  · rw [h] at he
    cases he
    simp
  · rw [h] at he
    cases he
    simp [hb]
  · have hout := fun hi => out_of_exec hi he
    rw [exec_result i hs] at he
    cases he
    refine ⟨fun _ => rfl, rfl, rfl, rfl, rfl, rfl, rfl, rfl, rfl, fun _ => rfl, fun hi => ⟨?ack, ackbit_ran hi s⟩,
      fun hi => ?rxdata, fun hi hi' => sr_ran hi hi' s, hout, fun _ => port_ran_other i s⟩
    case ack =>
      cases i with
      | send v => exact absurd rfl (hi v)
      | init | start | stop | recv a => rfl
    case rxdata =>
      cases i with
      | recv a => exact absurd rfl (hi a)
      | init | start | stop | send v => rfl

/-- A command takes its delays, in count and in time (R176). -/
theorem exec_delays (i : Instr) {s : State} (h : Ready s) :
    ∃ t, exec i s = .next t ∧ t.settles = s.settles + delaysOf i ∧
      elapsed t = elapsed s + delaysOf i * s.cfg.settle := by
  refine ⟨_, exec_result i h, rfl, ?_⟩
  simp only [elapsed]
  ring

/-- Settles O27: `delaysOf` is the table of the statement. -/
theorem commandSettleDelays : Obligations.CommandSettleDelays := by
  intro i s hs
  obtain ⟨-, -, -, -, -, hlength, -⟩ := microProgramTable
  obtain ⟨t, ht, hsettles, helapsed⟩ := exec_delays i hs
  refine ⟨t, ht, ?_, hlength i⟩
  cases i <;> exact ⟨hsettles, helapsed, sum_settlesOf_encode _⟩

end Sys2Proof.Machine
end

section
/-! SUPPORT. The engine's single steps (R91, R92): a launched command taken step by step is the whole call, a busy engine
always has its step, and an overrun disturbs none of them. -/

namespace Sys2Proof.Machine

/-! ### Launch and one step -/

/-- Settles O15: the three ghost fields that a launch writes. -/
theorem ghostTransitionsAtLaunch : Obligations.GhostTransitionsAtLaunch := by
  intro i w s t
  have hviol : t.viol = (s.viol || breaksContract i s) := rfl
  rw [hviol]
  cases i with
  | init | start | stop | send v | recv a => simp [t, launch, ghostInited, ghostFrame, breaksContract, or_assoc]

/-- An idle engine has no step (R91). -/
theorem engineStep_idle {s : State} (hb : s.busy = false) : engineStep s = .next s := by
  rw [engineStep, hb]
  rfl

/-- Settles O16: the two kinds of step, the last of which completes the command. -/
theorem engineStepExecutesOneMicroOperation : Obligations.EngineStepExecutesOneMicroOperation := by
  refine ⟨fun s => engineStep_idle, fun s i m hb hd hm => ⟨engineStep_next hb hd hm, fun hl => ?_⟩⟩
  rw [engineStep_last hb hd hm (by omega)]
  cases i <;> rfl

/-- Settles O41: the invariant names a legal word and a micro-operation of its micro-program. -/
theorem busyEngineNeverBlocks : Obligations.BusyEngineNeverBlocks := by
  intro s hinv hb
  rw [SequencerInv, if_pos hb] at hinv
  cases hd : decode s.cmdr with
  | illegal why =>
    rw [hd] at hinv
    exact hinv.elim
  | legal i =>
    rw [hd] at hinv
    have hm : (microprogram i)[s.upc.toNat]? = some _ := List.getElem?_eq_getElem hinv
    by_cases hl : s.upc.toNat + 1 < (microprogram i).length
    · exact ⟨_, engineStep_next hb hd hm hl⟩
    · exact ⟨_, engineStep_last hb hd hm hl⟩

/-! ### Many steps -/

/-- One more step after `n` of them. -/
theorem engineSteps_succ {n : Nat} {s t : State} (h : engineSteps n s = .next t) :
    engineSteps (n + 1) s = engineStep t := by
  induction n generalizing s with
  | zero =>
    cases h
    rw [engineSteps]
    cases engineStep t <;> simp only [engineSteps]
  | succ n ih =>
    rw [engineSteps] at h ⊢
    cases hs : engineStep s with
    | next u => rw [hs] at h; exact ih h
    | fault r => rw [hs] at h; cases h
    | refused r => rw [hs] at h; cases h

/-- Every micro-program is short enough for `UPC` to count through it (R97). -/
theorem length_microprogram_le (i : Instr) : (microprogram i).length ≤ 28 := by
  cases i with
  | init | start | stop | send v | recv a => simp [microprogram, microInit, microStart, microStop, microSend, microRecv, times]

/-- A launched command with `k` of its micro-operations executed. -/
def underway (i : Instr) (s : State) (k : Nat) : State :=
  { runOps ((microprogram i).take k) (launch i (encode i) s) with upc := BitVec.ofNat 5 k }

section
variable (i : Instr) (s : State) {k : Nat}

theorem underway_busy : (underway i s k).busy = true := by rw [underway, runOps_frame]; rfl

theorem underway_cmdr : (underway i s k).cmdr = encode i := by rw [underway, runOps_frame]; rfl

theorem underway_upc (hk : k < (microprogram i).length) : (underway i s k).upc.toNat = k := by
  have hlen := length_microprogram_le i
  rw [underway, BitVec.toNat_ofNat]
  omega

/-- The next micro-operation of a command under way. -/
theorem tick_underway (hk : k < (microprogram i).length) (u : BitVec 5) :
    { tick (microprogram i)[k] (underway i s k) with upc := u } =
      { runOps ((microprogram i).take (k + 1)) (launch i (encode i) s) with upc := u } := by
  rw [underway, tick_upc, List.take_succ_eq_append_getElem hk, runOps_append]
  rfl

/-- Every step of a command before its last leaves it under way. -/
theorem engineStep_underway (hk : k + 1 < (microprogram i).length) :
    engineStep (underway i s k) = .next (underway i s (k + 1)) := by
  have hk' : k < (microprogram i).length := by omega
  have hupc := underway_upc i s hk'
  have hm : (microprogram i)[(underway i s k).upc.toNat]? = some (microprogram i)[k] := by
    rw [hupc, List.getElem?_eq_getElem hk']
  have hd : decode (underway i s k).cmdr = .legal i := by rw [underway_cmdr, decode_encode]
  rw [engineStep_next (underway_busy i s) hd hm (by rwa [hupc]), tick_underway i s hk', underway, underway,
    ← BitVec.ofNat_add]

/-- The last step of a command completes it. -/
theorem engineStep_underway_last (hk : k + 1 = (microprogram i).length) :
    engineStep (underway i s k) = .next (complete i (ran i s)) := by
  have hk' : k < (microprogram i).length := by omega
  have hupc := underway_upc i s hk'
  have hm : (microprogram i)[(underway i s k).upc.toNat]? = some (microprogram i)[k] := by
    rw [hupc, List.getElem?_eq_getElem hk']
  have hd : decode (underway i s k).cmdr = .legal i := by rw [underway_cmdr, decode_encode]
  have htick := tick_underway i s hk' 0#5
  rw [hk, List.take_length, ← ran] at htick
  have hcomplete := congrArg (complete i) htick
  rw [engineStep_last (underway_busy i s) hd hm (by omega)]
  exact congrArg Host.Outcome.next hcomplete

/-- The first `k` steps of a launched command. -/
theorem engineSteps_launch (hk : k < (microprogram i).length) :
    engineSteps k (launch i (encode i) s) = .next (underway i s k) := by
  induction k with
  | zero => rfl
  | succ k ih => rw [engineSteps_succ (ih (by omega)), engineStep_underway i s hk]

end

/-- Settles O18: all steps but the last leave the command under way, and the last completes it. -/
theorem commandIsItsEngineSteps : Obligations.CommandIsItsEngineSteps := by
  intro i s hs
  rw [writeCmd_ready hs (decode_encode i)]
  refine ⟨?_, fun k hk => ⟨_, engineSteps_launch i s hk, underway_busy i s, underway_upc i s hk, underway_cmdr i s⟩⟩
  obtain ⟨k, hk⟩ : ∃ k, (microprogram i).length = k + 1 :=
    Nat.exists_eq_succ_of_ne_zero (by cases i <;> exact Nat.succ_ne_zero _)
  rw [hk, engineSteps_succ (engineSteps_launch i s (by omega)), engineStep_underway_last i s hk.symm, exec_ready i hs, ran]

/-! ### Overrun (R138) -/

/-- A command called on a busy engine is an overrun. -/
theorem exec_busy (i : Instr) {s : State} (hw : s.cfg.wf = true) (hr : s.rst = false) (hb : s.busy = true) :
    exec i s = .next { s with errOvr := true } := by
  rw [exec_eq_command, command, if_pos hw, if_pos (by rw [hb, Bool.or_true]), writeCmd_busy _ hr hb]

/-- An engine step does not see the overrun flag. -/
theorem engineStep_errOvr {s t : State} (h : engineStep s = .next t) :
    engineStep { s with errOvr := true } = .next { t with errOvr := true } := by
  have htick (m : MicroOp) : tick m { s with errOvr := true } = { tick m s with errOvr := true } := by
    have hkept : (tick m s).errIll = s.errIll := by rw [tick_frame]
    refine (tick_errorFlags m s.errIll true s).trans ?_
    rw [← hkept]
  obtain ⟨hb, he⟩ | ⟨-, he⟩ | ⟨i, m, hb, hd, hm, ⟨hl, he⟩ | ⟨hl, he⟩⟩ := engineStep_cases s <;>
    rw [he] at h <;> cases h
  · exact engineStep_idle hb
  · rw [engineStep_next (s := { s with errOvr := true }) hb hd hm hl, htick]
  · have hlast : ¬s.upc.toNat + 1 < (microprogram i).length := by omega
    rw [engineStep_last (s := { s with errOvr := true }) hb hd hm hlast, htick]
    rfl

/-- Nor do many. -/
theorem engineSteps_errOvr {n : Nat} {s t : State} (h : engineSteps n s = .next t) :
    engineSteps n { s with errOvr := true } = .next { t with errOvr := true } := by
  induction n generalizing s with
  | zero => cases h; rfl
  | succ n ih =>
    rw [engineSteps] at h ⊢
    cases hs : engineStep s with
    | next u =>
      rw [hs] at h
      rw [engineStep_errOvr hs]
      exact ih h
    | fault r => rw [hs] at h; cases h
    | refused r => rw [hs] at h; cases h

/-- Settles O29: the write and the call are turned away, and no later step sees the flag. -/
theorem cmdOverrunLeavesTheCommandRunning : Obligations.CmdOverrunLeavesTheCommandRunning :=
  fun _ hw hr hb => ⟨fun w => writeCmd_busy w hr hb, fun i => exec_busy i hw hr hb, fun _ _ => engineSteps_errOvr⟩

end Sys2Proof.Machine
end

section
/-! SUPPORT. What has no effect on a command: the ghost state (R144), the diagnostic hook (R147), and what the environment does
to the clock line (R95). -/

namespace Sys2Proof.Machine

/-- A change of the state that every tick commutes with commutes with every list of micro-operations. -/
theorem runOps_commutes {f : State → State} (h : ∀ m s, tick m (f s) = f (tick m s)) (ms : List MicroOp) (s : State) :
    runOps ms (f s) = f (runOps ms s) := by
  induction ms generalizing s with
  | nil => rfl
  | cons m ms ih => rw [runOps, h, ih, runOps]

/-! ### The ghost state -/

/-- A state with other values of the ghost fields. -/
def withGhosts (g : Bool) (f : Frame) (v : Bool) (s : State) : State := { s with inited := g, frame := f, viol := v }

theorem tick_withGhosts (g : Bool) (f : Frame) (v : Bool) (m : MicroOp) (s : State) :
    tick m (withGhosts g f v s) = withGhosts g f v (tick m s) := by
  cases m with
  | DS => simp only [tick, execMicro, opDS_eq]; rfl
  | DA => simp only [tick, execMicro, opDA_eq]; rfl
  | CL | CR | DL | DR | SMA | SMD | IR | OC => rfl

/-- A launch takes the ghost fields from the ghost fields alone, and the rest from the rest. -/
theorem launch_withGhosts (i : Instr) (w : Word) (g : Bool) (f : Frame) (v : Bool) (s : State) :
    ∃ g' f' v', launch i w (withGhosts g f v s) = withGhosts g' f' v' (launch i w s) :=
  ⟨_, _, _, rfl⟩

theorem complete_withGhosts (i : Instr) (g : Bool) (f : Frame) (v : Bool) (s : State) :
    complete i (withGhosts g f v s) = withGhosts g f v (complete i s) := rfl

/-- Settles O31: launch, micro-program and completion each read the ghost fields into the ghost fields only. -/
theorem ghostStateHasNoEffect : Obligations.GhostStateHasNoEffect := by
  intro i s g f v hs
  have hs' : Ready (withGhosts g f v s) := ⟨hs.wf, hs.released, hs.idle⟩
  obtain ⟨g', f', v', hlaunch⟩ := launch_withGhosts i (encode i) g f v s
  refine ⟨_, g', f', v', exec_ready i hs, (exec_ready i hs').trans ?_⟩
  rw [hlaunch, runOps_commutes (tick_withGhosts g' f' v'), complete_withGhosts]
  rfl

/-! ### The diagnostic hook -/

/-- A state whose hook is bound or not. -/
def withDiag (h : Bool) (s : State) : State := { s with cfg := { s.cfg with hasDiag := h } }

theorem tick_withDiag (h : Bool) (m : MicroOp) (s : State) : tick m (withDiag h s) = withDiag h (tick m s) := by
  cases m with
  | DS => simp only [tick, execMicro, opDS_eq]; rfl
  | DA => simp only [tick, execMicro, opDA_eq]; rfl
  | CL | CR | DL | DR | SMA | SMD | IR | OC => rfl

/-- Settles O33: the hook is neither among the bounds of a configuration nor read by a micro-operation. -/
theorem diagnosticHookIsInert : Obligations.DiagnosticHookIsInert := by
  intro i s t h he
  change exec i (withDiag h s) = .next (withDiag h t)
  obtain ⟨-, hx⟩ | ⟨hw, hr, hx⟩ | ⟨hw, hr, hb, hx⟩ | ⟨hs, hx⟩ := exec_cases i s <;> rw [hx] at he <;> cases he
  · exact exec_rst i (s := withDiag h s) hw hr
  · exact exec_busy i (s := withDiag h s) hw hr hb
  · have hs' : Ready (withDiag h s) := ⟨hs.wf, hs.released, hs.idle⟩
    have hlaunch : launch i (encode i) (withDiag h s) = withDiag h (launch i (encode i) s) := rfl
    rw [exec_ready i hs', hlaunch, runOps_commutes (tick_withDiag h)]
    rfl

/-! ### The clock line -/

/-- Environments that do the same to the data line, now and at every later move. -/
structure Env.SameData (e e' : Env) : Prop where
  low : e'.low.sda = e.low.sda
  answers : e'.answers.map (·.sda) = e.answers.map (·.sda)
  moves : e'.moves = e.moves

/-- Forgetting the clock line keeps the data line. -/
theorem Env.sameData_forgetClock (e : Env) : e.SameData e.forgetClock :=
  ⟨rfl, by simp [Env.forgetClock, Function.comp_def], rfl⟩

/-- A move keeps what is the same: both moves are written down, or both are the same free draw. -/
theorem Env.SameData.advance {e e' : Env} (h : e.SameData e') : e.advance.SameData e'.advance := by
  obtain ⟨low, answers, moves⟩ := e
  obtain ⟨low', answers', moves'⟩ := e'
  obtain ⟨-, hanswers, hmoves⟩ := h
  cases hmoves
  cases answers with
  | nil =>
    obtain rfl := List.map_eq_nil_iff.1 hanswers
    exact ⟨rfl, rfl, rfl⟩
  | cons a as =>
    cases answers' with
    | nil => cases hanswers
    | cons a' as' =>
      obtain ⟨hhead, htail⟩ := List.cons.inj hanswers
      exact ⟨hhead, htail, rfl⟩

/-- A sample sees of the environment what it does to the data line (R86, R87). -/
theorem sampleSda_sameData {s : State} {e : Env} (h : s.env.SameData e) : sampleSda { s with env := e } = sampleSda s := by
  have hlow : envLow { s with env := e } s.cfg.sdaIdx = envLow s s.cfg.sdaIdx := by
    rw [envLow_sda s, ← h.low]
    exact envLow_sda { s with env := e }
  rw [sampleSda_eq_level, sampleSda_eq_level, level, level, hlow, h.moves]

/-- So does a micro-operation. -/
theorem tick_sameData (m : MicroOp) {s : State} {e : Env} (h : s.env.SameData e) :
    tick m { s with env := e } = { tick m s with env := e.advance } := by
  have hsample : sampleSda (envMove { s with env := e }) = sampleSda (envMove s) :=
    sampleSda_sameData (s := envMove s) h.advance
  cases m with
  | SMA => simp only [tick, execMicro, opSMA, hsample]; rfl
  | SMD => simp only [tick, execMicro, opSMD, hsample]; rfl
  | DS => simp only [tick, execMicro, opDS_eq]; rfl
  | DA => simp only [tick, execMicro, opDA_eq]; rfl
  | CL | CR | DL | DR | IR | OC => rfl

/-- So does a list of micro-operations. -/
theorem runOps_sameData (ms : List MicroOp) {s : State} {e : Env} (h : s.env.SameData e) :
    runOps ms { s with env := e } = { runOps ms s with env := e.after ms.length } := by
  induction ms generalizing s e with
  | nil => rfl
  | cons m ms ih =>
    have hnext : (tick m s).env.SameData e.advance := by rw [tick_env]; exact h.advance
    rw [runOps, tick_sameData m h, ih hnext, runOps]
    rfl

/-- Settles O34: with the clock line forgotten the data line is pulled as before, and that is all a command reads. -/
theorem clockLineIsNeverSampled : Obligations.ClockLineIsNeverSampled := by
  intro i s hs
  have hs' : Ready { s with env := s.env.forgetClock } := ⟨hs.wf, hs.released, hs.idle⟩
  have hlaunch : launch i (encode i) { s with env := s.env.forgetClock } =
      { launch i (encode i) s with env := s.env.forgetClock } := rfl
  have hsame : (launch i (encode i) s).env.SameData s.env.forgetClock := s.env.sameData_forgetClock
  refine ⟨_, _, exec_ready i hs, exec_ready i hs', ?_⟩
  rw [hlaunch, runOps_sameData _ hsame]
  rfl

end Sys2Proof.Machine
end

section
/-! SUPPORT. The wire (R93): one line moved at a time makes the START and STOP conditions (R102, R103), and on a bus nobody
pulls the levels follow the two `DIR` bits, so that each rise of the clock shows the data bit (R107, R108, R113, R118). -/

namespace Sys2Proof.Machine

/-! ### One line moved (R82, R83) -/

/-- The level of a pin depends on its own two bits and on the environment. -/
theorem level_congr {s t : State} {p : Nat} (hcfg : t.cfg = s.cfg) (henv : t.env = s.env)
    (hdir : t.dir.getLsbD p = s.dir.getLsbD p) (hout : t.out.getLsbD p = s.out.getLsbD p) : level t p = level s p := by
  have hlow : envLow t p = envLow s p := by rw [envLow, envLow, hcfg, henv]
  rw [level, level, hlow, henv, hdir, hout]

/-- `DL` with the latch bit 0 makes the data line low and leaves the clock line. -/
theorem levels_opDL {s : State} (hwf : s.cfg.wf = true) (hlatch : LatchLow s) :
    levels (opDL s) = { c := level s s.cfg.sclIdx, d := false } := by
  obtain ⟨hsda, -, hne, -⟩ := (Config.wf_iff _).1 hwf
  have hc : level (opDL s) s.cfg.sclIdx = level s s.cfg.sclIdx :=
    level_congr rfl rfl (getLsbD_set_other s.dir hne) rfl
  have hd : level (opDL s) s.cfg.sdaIdx = false := level_drivenLow (getLsbD_set_same s.dir hsda) hlatch.1
  exact congrArg₂ Levels.mk hc hd

/-- `DR` leaves the data line to the environment, and the clock line as it was. -/
theorem levels_opDR {s : State} (hne : s.cfg.sdaIdx ≠ s.cfg.sclIdx) :
    levels (opDR s) = { c := level s s.cfg.sclIdx, d := !s.env.low.sda } := by
  have hc : level (opDR s) s.cfg.sclIdx = level s s.cfg.sclIdx :=
    level_congr rfl rfl (getLsbD_clr_other s.dir hne) rfl
  have hd : level (opDR s) s.cfg.sdaIdx = !s.env.low.sda := by
    rw [← envLow_sda s]
    exact level_released (getLsbD_clr_same s.dir s.cfg.sdaIdx)
  exact congrArg₂ Levels.mk hc hd

/-- A data line that ends low makes a START condition exactly if both lines were high and the clock stays. -/
theorem wireEvent_eq_start_iff (x : Levels) :
    wireEvent x { c := x.c, d := false } = some .start ↔ x.c = true ∧ x.d = true := by
  obtain ⟨c, d⟩ := x
  revert c d
  decide

/-- From a low data line, a STOP condition is its rise under a high clock that stays. -/
theorem wireEvent_eq_stop_iff (c d : Bool) :
    wireEvent { c := c, d := false } { c := c, d := d } = some .stop ↔ c = true ∧ d = true := by
  revert c d
  decide

/-- Settles O35: the `DL` of `START` lowers the data line and leaves the clock line. -/
theorem startConditionExactlyWhenBothHigh : Obligations.StartConditionExactlyWhenBothHigh := by
  intro s hs hlatch before
  have hlevels : levels (opDL before) = { c := (levels before).c, d := false } := levels_opDL hs.wf hlatch
  refine ⟨exec_ready .start hs, ?_⟩
  rw [hlevels]
  exact wireEvent_eq_start_iff (levels before)

/-- Settles O36: the lines that `CL` and `DL` drive are low; at the final `DR` the clock is already released, so both levels
are the environment's. -/
theorem stopConditionExactlyWhenUnpulled : Obligations.StopConditionExactlyWhenUnpulled := by
  intro s hs hlatch a b c before
  obtain ⟨hsda, hscl, hne, -⟩ := (Config.wf_iff _).1 hs.wf
  obtain ⟨hlsda, hlscl⟩ := hlatch
  have hca : sclDriven a = true := sclDriven_tick .CL (launch .stop (encode .stop) s) hs.wf
  have hcb : sclDriven b = true := (sclDriven_tick .DL a hs.wf).trans hca
  have hdb : sdaDriven b = true := sdaDriven_tick .DL a hs.wf
  have hcc : sclDriven c = false := sclDriven_tick .CR b hs.wf
  have hdc : sdaDriven c = true := (sdaDriven_tick .CR b hs.wf).trans hdb
  refine ⟨level_drivenLow hca hlscl, level_drivenLow hcb hlscl, level_drivenLow hdb hlsda, hdc, hcc,
    level_drivenLow hdc hlsda, exec_ready .stop hs, ?_⟩
  have hclock : level before s.cfg.sclIdx = !before.env.low.scl := by
    rw [← envLow_scl before hne]
    exact level_released hcc
  have hdata : level before s.cfg.sdaIdx = false := level_drivenLow hdc hlsda
  have hbefore : levels before = { c := !before.env.low.scl, d := false } := congrArg₂ Levels.mk hclock hdata
  have hafter : levels (opDR before) = { c := !before.env.low.scl, d := !before.env.low.sda } :=
    (levels_opDR (s := before) hne).trans (congrArg (Levels.mk · _) hclock)
  rw [hbefore, hafter, wireEvent_eq_stop_iff]
  obtain ⟨sda, scl⟩ := before.env.low
  revert sda scl
  decide

/-! ### A bus nobody pulls -/

/-- Quiet for one more move: quiet now, and quiet after the move. -/
theorem quietFor_succ {n : Nat} {e : Env} (h : e.quietFor (n + 1)) : e.advance.quietFor n := by
  obtain ⟨low, answers, moves⟩ := e
  obtain ⟨hlow, hanswers⟩ := h
  cases answers with
  | nil => cases hanswers
  | cons a as =>
    rw [List.take_succ_cons, List.replicate_succ, List.cons.injEq] at hanswers
    exact hanswers

/-- With nothing pulled and both latch bits 0 a line is high exactly when the engine releases it. -/
theorem levels_quiet {s : State} (hlatch : LatchLow s) (hquiet : s.env.low = { sda := false, scl := false })
    (hne : s.cfg.sdaIdx ≠ s.cfg.sclIdx) : levels s = { c := !sclDriven s, d := !sdaDriven s } := by
  obtain ⟨hlsda, hlscl⟩ := hlatch
  have hc : level s s.cfg.sclIdx = !sclDriven s := by
    cases hd : sclDriven s with
    | true => exact level_drivenLow hd hlscl
    | false => rw [level_released hd, envLow_scl s hne, hquiet]
  have hd : level s s.cfg.sdaIdx = !sdaDriven s := by
    cases hd : sdaDriven s with
    | true => exact level_drivenLow hd hlsda
    | false => rw [level_released hd, envLow_sda, hquiet]
  exact congrArg₂ Levels.mk hc hd

/-- Levels that stay show nothing. -/
theorem wireEvent_self (x : Levels) : wireEvent x x = none := by
  obtain ⟨c, d⟩ := x
  revert c d
  decide

/-- Where the data bit stays, or the clock is held low throughout, the one event is the bit at a release of the clock. -/
theorem wireEvent_released {c d c' d' : Bool} (h : d' = d ∨ (c = true ∧ c' = true)) :
    wireEvent { c := !c, d := !d } { c := !c', d := !d' } = if c && !c' then some (.bit (!d)) else none := by
  revert c d c' d'
  decide

/-- `OC` clears the two latch bits. -/
theorem latchLow_tick_OC (s : State) : LatchLow (tick .OC s) :=
  ⟨getLsbD_clr_bits_left s.out _ _, getLsbD_clr_bits_right s.out _ _⟩

/-- No other micro-operation writes them. -/
theorem latchLow_tick {m : MicroOp} {s : State} (h : LatchLow s) : LatchLow (tick m s) := by
  by_cases hm : m = .OC
  · subst hm
    exact latchLow_tick_OC s
  · rwa [LatchLow, tick_out m s hm, tick_cfg]

/-- The data bits at the releases of a held clock, while a list of micro-operations runs. -/
def rises : List MicroOp → State → List Bool
  | [], _ => []
  | m :: ms, s =>
    if sclDriven s && !sclDriven (tick m s) then (!sdaDriven s) :: rises ms (tick m s) else rises ms (tick m s)

/-- `SEND` and `RECV` move the data bit under a held clock only (R94). -/
theorem edgeAllowed_transfer {i : Instr} (hi : i ≠ .init ∧ i ≠ .start ∧ i ≠ .stop) {m : MicroOp}
    {post : List MicroOp} {c : Bool} (h : EdgeAllowed i m post c) : c = true ∧ clockAfter [m] c = true := by
  obtain h | ⟨he, -⟩ | ⟨he, -⟩ | ⟨he, -⟩ := h
  · exact h
  · exact absurd he hi.2.1
  · exact absurd he hi.2.2
  · exact absurd he hi.1

/-- On a bus nobody pulls, the wire events of a transfer are the bits at the rises of the clock. -/
theorem eventsOf_opLevels_quiet {i : Instr} (hi : i ≠ .init ∧ i ≠ .start ∧ i ≠ .stop) {ms : List MicroOp} {s : State}
    (hwf : s.cfg.wf = true) (hlatch : LatchLow s) (hquiet : s.env.quietFor ms.length)
    (hlegal : EdgesLegal i ms (sclDriven s)) : eventsOf (levels s :: opLevels ms s) = (rises ms s).map .bit := by
  induction ms generalizing s with
  | nil => rfl
  | cons m ms ih =>
    obtain ⟨-, -, hne, -⟩ := (Config.wf_iff _).1 hwf
    obtain ⟨hedge, hrest⟩ := hlegal
    have hclock := sclDriven_tick m s hwf
    have hquiet' : (tick m s).env.quietFor ms.length := by
      rw [tick_env]
      exact quietFor_succ hquiet
    have hlatch' : LatchLow (tick m s) := latchLow_tick hlatch
    have hs := levels_quiet hlatch hquiet.1 hne
    have hmoved : levels (envMove s) = levels s :=
      (levels_quiet (s := envMove s) hlatch (quietFor_succ hquiet).1 hne).trans hs.symm
    have hticked := levels_quiet hlatch' hquiet'.1 (by rwa [tick_cfg])
    have hkept : sdaDriven (tick m s) = sdaDriven s ∨ (sclDriven s = true ∧ sclDriven (tick m s) = true) := by
      cases hm : movesData m with
      | false => exact .inl (sdaDriven_tick_of_not_movesData hwf hm)
      | true =>
        rw [hclock]
        exact .inr (edgeAllowed_transfer hi (hedge hm))
    have htail := ih (s := tick m s) (by rwa [tick_cfg]) hlatch' hquiet' (by rwa [hclock])
    rw [opLevels, hmoved, eventsOf, wireEvent_self, eventsOf, hs, hticked, wireEvent_released hkept, rises, ← hticked, htail]
    cases sclDriven s && !sclDriven (tick m s) <;> rfl

/-! ### The cells of `SEND` and `RECV` -/

section
variable {s : State} (hwf : s.cfg.wf = true) (ms : List MicroOp)
include hwf

/-- A micro-operation that keeps the clock bit shows nothing. -/
theorem rises_keep {m : MicroOp} (hm : ∀ c, clockAfter [m] c = c) : rises (m :: ms) s = rises ms (tick m s) := by
  rw [rises, sclDriven_tick m s hwf, hm, Bool.and_not_self, if_neg Bool.false_ne_true]

/-- Holding the clock shows nothing. -/
theorem rises_CL : rises (.CL :: ms) s = rises ms (tick .CL s) := by
  have hc : sclDriven (tick .CL s) = true := sclDriven_tick .CL s hwf
  rw [rises, hc, Bool.not_true, Bool.and_false, if_neg Bool.false_ne_true]

/-- Releasing a held clock shows the data bit. -/
theorem rises_CR (hheld : sclDriven s = true) : rises (.CR :: ms) s = (!sdaDriven s) :: rises ms (tick .CR s) := by
  have hc : sclDriven (tick .CR s) = false := sclDriven_tick .CR s hwf
  rw [rises, hc, hheld]
  rfl

/-- A cell whose data operation is `m` shows the bit that `m` makes. -/
theorem rises_cell {m : MicroOp} (hm : ∀ c, clockAfter [m] c = c) :
    rises (.CL :: m :: .CR :: ms) s = (!dataBit m (tick .CL s)) :: rises ms (runOps [.CL, m, .CR] s) := by
  have hwf' : (tick .CL s).cfg.wf = true := by rwa [tick_cfg]
  have hwf'' : (tick m (tick .CL s)).cfg.wf = true := by rwa [tick_cfg]
  have hheld : sclDriven (tick m (tick .CL s)) = true := by
    rw [sclDriven_tick m _ hwf', hm]
    exact sclDriven_tick .CL s hwf
  rw [rises_CL hwf, rises_keep hwf' _ hm, rises_CR hwf'' _ hheld, sdaDriven_tick m _ hwf']
  rfl

/-- A cell in which the data bit stays, its sample taken at the end, shows the data bit. -/
theorem rises_sampleCell :
    rises (.CL :: .CR :: .SMD :: ms) s = (!sdaDriven s) :: rises ms (runOps [.CL, .CR, .SMD] s) := by
  have hwf' : (tick .CL s).cfg.wf = true := by rwa [tick_cfg]
  have hwf'' : (tick .CR (tick .CL s)).cfg.wf = true := by rwa [tick_cfg]
  have hdata : sdaDriven (tick .CL s) = sdaDriven s := sdaDriven_tick .CL s hwf
  rw [rises_CL hwf, rises_CR hwf' _ (sclDriven_tick .CL s hwf), rises_keep hwf'' _ (fun _ => rfl), hdata]
  rfl

end

/-- The first `n` bits that `DS` takes from a byte. -/
def topBits : Nat → Byte → List Bool
  | 0, _ => []
  | n + 1, v => v.getLsbD 7 :: topBits n (v <<< 1)

/-- Eight of them are the byte's bits. -/
theorem topBits_eight (v : Byte) : topBits 8 v = bitsMsbFirst v := by
  simp [topBits, bitsMsbFirst, BitVec.getLsbD_shiftLeft, -BitVec.getLsbD_eq_getElem]

/-- `n` cells of `SEND` show the top `n` bits of `SR`. -/
theorem rises_sendCells (n : Nat) (ms : List MicroOp) {s : State} (hwf : s.cfg.wf = true) :
    rises (times n [.CL, .DS, .CR] ++ ms) s = topBits n s.sr ++ rises ms (runOps (times n [.CL, .DS, .CR]) s) := by
  induction n generalizing s with
  | zero => rfl
  | succ n ih =>
    have hsr : (runOps [.CL, .DS, .CR] s).sr = s.sr <<< 1 := sr_runOps (by decide) s
    have hbit : (!dataBit .DS (tick .CL s)) = s.sr.getLsbD 7 := Bool.not_not _
    have hcell := rises_cell hwf (m := .DS) (times n [.CL, .DS, .CR] ++ ms) fun _ => rfl
    rw [hbit, ih (by rwa [runOps_cfg]), hsr] at hcell
    rw [times, List.append_assoc, runOps_append]
    exact hcell

/-- `n` sample cells of `RECV` show released bits. -/
theorem rises_sampleCells (n : Nat) (ms : List MicroOp) {s : State} (hwf : s.cfg.wf = true) (hs : sdaDriven s = false) :
    rises (times n [.CL, .CR, .SMD] ++ ms) s =
      List.replicate n true ++ rises ms (runOps (times n [.CL, .CR, .SMD]) s) := by
  induction n generalizing s with
  | zero => rfl
  | succ n ih =>
    have hreleased : sdaDriven (runOps [.CL, .CR, .SMD] s) = false :=
      (sdaDriven_runOps [.CL, .CR, .SMD] s hwf (by decide)).trans hs
    have hcell := rises_sampleCell hwf (times n [.CL, .CR, .SMD] ++ ms)
    rw [hs, ih (by rwa [runOps_cfg]) hreleased] at hcell
    rw [times, List.append_assoc, runOps_append]
    exact hcell

/-- `SEND` shows its byte and a released bit. -/
theorem rises_microSend {s : State} (hwf : s.cfg.wf = true) : rises microSend s = bitsMsbFirst s.sr ++ [true] := by
  have hcells := rises_sendCells 8 [.CL, .DR, .CR, .SMA] hwf
  have hack (t : State) (ht : t.cfg.wf = true) : rises [.CL, .DR, .CR, .SMA] t = [true] := by
    rw [rises_cell ht _ (m := .DR) (fun _ => rfl), rises_keep (by rwa [runOps_cfg]) _ (fun _ => rfl)]
    rfl
  rw [topBits_eight, hack _ (by rwa [runOps_cfg])] at hcells
  exact hcells

/-- `RECV` shows eight released bits and the acknowledge. -/
theorem rises_microRecv {s : State} (hwf : s.cfg.wf = true) :
    rises microRecv s = List.replicate 8 true ++ [!ackOperand s] := by
  have hsplit : microRecv = .CL :: .DR :: .CR :: .SMD :: (times 7 [.CL, .CR, .SMD] ++ [.CL, .DA, .CR]) := rfl
  have hfirst : tick .SMD (runOps [.CL, .DR, .CR] s) = runOps [.CL, .DR, .CR, .SMD] s := rfl
  generalize ht : runOps [.CL, .DR, .CR, .SMD] s = t at hfirst
  have hwft : t.cfg.wf = true := by rw [← ht, runOps_cfg, hwf]
  have hreleased : sdaDriven t = false := by
    rw [← ht]
    exact sdaDriven_runOps [.CL, .DR, .CR, .SMD] s hwf (by decide)
  generalize hu : runOps (times 7 [.CL, .CR, .SMD]) t = u
  have hwfu : u.cfg.wf = true := by rw [← hu, runOps_cfg, hwft]
  have hreleased' : sdaDriven u = false := by
    rw [← hu, sdaDriven_runOps _ t hwft (by decide), hreleased]
    rfl
  have hack : (!dataBit .DA (tick .CL u)) = !ackOperand s := by
    have hdata : sdaDriven (tick .CL u) = false := (sdaDriven_tick .CL u hwfu).trans hreleased'
    have hcmdr : (tick .CL u).cmdr = s.cmdr := by rw [tick_cmdr, ← hu, runOps_cmdr, ← ht, runOps_cmdr]
    rw [dataBit, hdata, Bool.or_false, ackOperand, hcmdr, ackOperand]
  rw [hsplit, rises_cell hwf _ (m := .DR) (fun _ => rfl), rises_keep (by rwa [runOps_cfg]) _ (fun _ => rfl), hfirst,
    rises_sampleCells 7 _ hwft hreleased, hu, rises_cell hwfu _ (m := .DA) (fun _ => rfl), hack]
  rfl

/-- Settles O38: the bits at the rises of the clock are the byte and a released bit, or eight released bits and the
acknowledge. -/
theorem byteTransfersOnAQuietWire : Obligations.ByteTransfersOnAQuietWire := by
  intro s hs hlatch hquiet
  refine ⟨fun v => ?_, fun a => ?_⟩
  · have hevents := eventsOf_opLevels_quiet (i := .send v) (ms := microSend) (s := launch (.send v) (encode (.send v)) s)
      (by simp) hs.wf hlatch hquiet (edgesLegal_microprogram (.send v) _)
    rw [rises_microSend (s := launch (.send v) (encode (.send v)) s) hs.wf] at hevents
    exact hevents
  · have hevents := eventsOf_opLevels_quiet (i := .recv a) (ms := microRecv) (s := launch (.recv a) (encode (.recv a)) s)
      (by simp) hs.wf hlatch hquiet (edgesLegal_microprogram (.recv a) _)
    have hack : ackOperand (launch (.recv a) (encode (.recv a)) s) = a := getLsbD_zero_encode_recv a
    rw [rises_microRecv (s := launch (.recv a) (encode (.recv a)) s) hs.wf, hack] at hevents
    exact hevents

/-! ### The loop-back law (R118) -/

/-- A byte is its bits. -/
theorem bitsMsbFirst_injective {v w : Byte} (h : bitsMsbFirst v = bitsMsbFirst w) : v = w := by
  simp only [bitsMsbFirst, List.cons.injEq] at h
  apply BitVec.eq_of_getLsbD_eq
  intro k hk
  interval_cases k <;> simp only [h]

/-- The bits of a byte, shifted in as samples, give back the byte (R114). -/
theorem byteOfSamples_bitsMsbFirst (v : Byte) : byteOfSamples (bitsMsbFirst v) = v :=
  bitsMsbFirst_injective (bitsMsbFirst_foldl_shiftIn 0#8 (v.getLsbD 7) (v.getLsbD 6) (v.getLsbD 5) (v.getLsbD 4)
    (v.getLsbD 3) (v.getLsbD 2) (v.getLsbD 1) (v.getLsbD 0))

/-- The events of bits are the bits. -/
theorem eventBits_map_bit (bs : List Bool) : eventBits (bs.map .bit) = bs := by
  induction bs with
  | nil => rfl
  | cons b bs ih => rw [List.map_cons, eventBits, ih]

/-- The environment that `presents` writes down is sampled as what it presents. -/
theorem recvSamples_presents (b1 b2 b3 b4 b5 b6 b7 b8 : Bool) (low : EnvLow) (rest : List EnvLow) (n : Nat) :
    recvSamples { low := low, answers := presents [b1, b2, b3, b4, b5, b6, b7, b8] ++ rest, moves := n } =
      [b1, b2, b3, b4, b5, b6, b7, b8] := by
  show [!!b1, !!b2, !!b3, !!b4, !!b5, !!b6, !!b7, !!b8] = _
  simp only [Bool.not_not]

/-- Settles O39: what the `SEND` showed is the byte's bits, and a `RECV` that samples them assembles the byte. -/
theorem loopbackReproducesTheByte : Obligations.LoopbackReproducesTheByte := by
  intro v a s t hs hlatch hquiet hsend recorded
  have hrecorded : recorded = bitsMsbFirst v := by
    obtain ⟨hevents, -⟩ := byteTransfersOnAQuietWire s hs hlatch hquiet
    change (eventBits (commandEvents (.send v) s)).take 8 = bitsMsbFirst v
    rw [hevents v, eventBits_map_bit]
    rfl
  have ht : Ready t := ready_of_exec hs hsend
  refine ⟨hrecorded, fun e he => ?_, fun low rest n => ?_⟩
  · refine ⟨_, recvResult a { t with env := e } ⟨ht.wf, ht.released, ht.idle⟩, ?_⟩
    show byteOfSamples (recvSamples e) = v
    rw [he, hrecorded, byteOfSamples_bitsMsbFirst]
  · rw [hrecorded]
    exact recvSamples_presents _ _ _ _ _ _ _ _ low rest n

end Sys2Proof.Machine
end

section
/-! SUPPORT. The co-user's accesses to the port (R26, R38, R44). -/

namespace Sys2Proof.Machine

/-- A masked write: the bits of the mask from the new value, the others from the old. -/
theorem getLsbD_masked (x bits v : Port) {q : Nat} (hq : q < 8) :
    ((x &&& ~~~bits) ||| (v &&& bits)).getLsbD q = if bits.getLsbD q then v.getLsbD q else x.getLsbD q := by
  rw [BitVec.getLsbD_or, BitVec.getLsbD_and, BitVec.getLsbD_and, BitVec.getLsbD_not]
  cases bits.getLsbD q <;> simp [hq]

/-- A mask shares a bit with the mask of two pins exactly if it has one of the two bits. -/
theorem and_bits_ne_zero_iff (m : Port) {p q : Nat} (hp : p < 8) (hq : q < 8) :
    m &&& (bit p ||| bit q) ≠ 0#8 ↔ m.getLsbD p = true ∨ m.getLsbD q = true := by
  constructor
  · intro hne
    by_contra hnone
    obtain ⟨hmp, hmq⟩ := not_or.1 hnone
    refine hne (port_ext p q ?_ ?_ fun r hrp hrq => ?_)
    · rw [BitVec.getLsbD_and, Bool.eq_false_of_not_eq_true hmp, Bool.false_and, BitVec.getLsbD_zero]
    · rw [BitVec.getLsbD_and, Bool.eq_false_of_not_eq_true hmq, Bool.false_and, BitVec.getLsbD_zero]
    · rw [BitVec.getLsbD_and, getLsbD_bits, decide_eq_false hrp.symm, decide_eq_false hrq.symm, Bool.or_false,
        Bool.and_false, Bool.and_false, BitVec.getLsbD_zero]
  · intro hsome hzero
    have hbit (r : Nat) : (m.getLsbD r && (decide (r < 8) && (decide (p = r) || decide (q = r)))) = false := by
      rw [← getLsbD_bits, ← BitVec.getLsbD_and, hzero, BitVec.getLsbD_zero]
    obtain hm | hm := hsome
    · simpa [hm, hp, -BitVec.getLsbD_eq_getElem] using hbit p
    · simpa [hm, hq, -BitVec.getLsbD_eq_getElem] using hbit q

section
variable {s : State} (hwf : s.cfg.wf = true) (r : Latch) (bits v : Port)
include hwf

/-- A co-user's write breaks the contract while the engine is busy, and wherever it writes one of the engine's bits. -/
theorem viol_couserWrite_iff :
    (couserWrite r bits v s).viol = true ↔
      s.viol = true ∨ s.busy = true ∨ bits.getLsbD s.cfg.sdaIdx = true ∨ bits.getLsbD s.cfg.sclIdx = true := by
  obtain ⟨hsda, hscl, -⟩ := (Config.wf_iff _).1 hwf
  rw [← and_bits_ne_zero_iff bits hsda hscl, ← bne_iff_ne, ← Bool.or_eq_true, ← Bool.or_eq_true, ← Bool.or_assoc]
  rfl

/-- A co-user's write within the contract: the contract was kept before, the engine is idle, and the engine's bits of both
registers stay. -/
theorem couserWrite_allowed (h : (couserWrite r bits v s).viol = false) :
    s.viol = false ∧ s.busy = false ∧ sdaDriven (couserWrite r bits v s) = sdaDriven s ∧
      sclDriven (couserWrite r bits v s) = sclDriven s ∧ (LatchLow s → LatchLow (couserWrite r bits v s)) := by
  obtain ⟨hsda, hscl, -⟩ := (Config.wf_iff _).1 hwf
  have hnone := (viol_couserWrite_iff hwf r bits v).not.1 (by rw [h]; exact Bool.false_ne_true)
  simp only [not_or, Bool.not_eq_true] at hnone
  obtain ⟨hviol, hidle, hbsda, hbscl⟩ := hnone
  have hkept (x : Port) {p : Nat} (hp : p < 8) (hb : bits.getLsbD p = false) :
      ((x &&& ~~~bits) ||| (v &&& bits)).getLsbD p = x.getLsbD p := by
    rw [getLsbD_masked x bits v hp, hb, if_neg Bool.false_ne_true]
  cases r with
  | dir => exact ⟨hviol, hidle, hkept s.dir hsda hbsda, hkept s.dir hscl hbscl, id⟩
  | out =>
    exact ⟨hviol, hidle, rfl, rfl, fun ⟨hl, hl'⟩ =>
      ⟨(hkept s.out hsda hbsda).trans hl, (hkept s.out hscl hbscl).trans hl'⟩⟩

end

/-- Settles O53: each reference reaches its register, and the write is the masked one. -/
theorem couserWritesItsBitsOnly : Obligations.CouserWritesItsBitsOnly := by
  intro s bits v hwf t u
  have hreg := portReg_portRef hwf
  have hother {ref : Nat} (h : ∀ r, ref ≠ portRef s.cfg r) : portReg s.cfg ref = none := by
    cases hr : portReg s.cfg ref with
    | none => rfl
    | some r => exact absurd (portReg_eq_some hr) (h r)
  refine ⟨?_, ?_, ?_, fun r => ?_, fun ref h => ⟨?_, ?_⟩, rfl, rfl,
    fun q hq => ⟨getLsbD_masked s.dir bits v hq, getLsbD_masked s.out bits v hq⟩, rfl,
    viol_couserWrite_iff hwf .dir bits v, fun h => ?_⟩
  · rw [perform, couserWriteAt, show portReg s.cfg s.cfg.dirRef = _ from hreg .dir]
  · rw [perform, couserWriteAt, show portReg s.cfg s.cfg.outRef = _ from hreg .out]
  · rw [perform, couserWriteAt, show portReg s.cfg s.cfg.inRef = _ from hreg .input]
  · rw [perform, couserReadAt, hreg r, couserRead]
  · rw [perform, couserReadAt, hother h]
  · rw [perform, couserWriteAt, hother h]
  · obtain ⟨-, -, hsda, hscl, -⟩ := couserWrite_allowed hwf .dir bits v h
    exact ⟨hsda, hscl⟩

end Sys2Proof.Machine
end

section
/-! SUPPORT. The invariants of the engine (R18, R25, R39, R151), each shown for the moves that touch the engine and so for
every step of the machine. -/

namespace Sys2Proof.Machine

/-! ### Invariants that only the engine, the co-user and reset can endanger -/

/-- A property that survives each move of the machine: those of the host and the environment, the raising of a flag, a launch,
a whole command, an engine step in the middle and at the end of a command, the co-user's accesses and reset. -/
structure EngineInvariant (P : State → Prop) : Prop where
  others {s : State} (d : Word) (n : Nat) (k : Option EeTask) (m : Memory) (a : List Move) (e : Env) :
    P s → P { s with hostData := d, waits := n, task := k, mem := m, agenda := a, env := e }
  flags {s : State} (x y : Bool) : s.rst = false → P s → P { s with errIll := x, errOvr := y }
  launched {s : State} (i : Instr) : s.rst = false → s.busy = false → P s → P (launch i (encode i) s)
  completed {s : State} (i : Instr) : Ready s → P s → P (complete i (ran i s))
  stepped {s : State} {i : Instr} {m : MicroOp} : s.cfg.wf = true → s.busy = true → decode s.cmdr = .legal i →
    (microprogram i)[s.upc.toNat]? = some m → s.upc.toNat + 1 < (microprogram i).length → P s →
    P { tick m s with upc := s.upc + 1#5 }
  finished {s : State} {i : Instr} {m : MicroOp} : s.cfg.wf = true → s.busy = true → decode s.cmdr = .legal i →
    (microprogram i)[s.upc.toNat]? = some m → s.upc.toNat + 1 = (microprogram i).length → P s → P (complete i (tick m s))
  couserRead {s : State} : P s → P (couserRead s)
  couserWrite {s : State} (r : Latch) (bits v : Port) : s.cfg.wf = true → P s → P (couserWrite r bits v s)
  reset {s : State} (b : Bool) : P s → P (setRst b s)

namespace EngineInvariant

variable {P : State → Prop} {s t : State}

/-- A command that is turned away changes at most a flag. -/
theorem of_exec (hP : EngineInvariant P) {i : Instr} (h : P s) (he : exec i s = .next t) : P t := by
  obtain ⟨-, hx⟩ | ⟨-, -, hx⟩ | ⟨-, hr, -, hx⟩ | ⟨hs, hx⟩ := exec_cases i s <;> rw [hx] at he <;> cases he
  · exact h
  · exact hP.flags s.errIll true hr h
  · exact hP.completed i hs h

/-- A write to `CMD` is ignored, raises a flag, or launches. -/
theorem of_writeCmd (hP : EngineInvariant P) (w : Word) (h : P s) : P (writeCmd w s) := by
  obtain hr | hr := Bool.eq_false_or_eq_true s.rst
  · rwa [writeCmd_rst w hr]
  · obtain hb | hb := Bool.eq_false_or_eq_true s.busy
    · rw [writeCmd_busy w hr hb]
      exact hP.flags s.errIll true hr h
    · cases hd : decode w with
      | illegal why =>
        rw [writeCmd_illegal hr hb hd]
        exact hP.flags true s.errOvr hr h
      | legal i =>
        rw [writeCmd_legal hr hb hd, ← decode_eq_legal_iff.1 hd]
        exact hP.launched i hr hb h

theorem of_engineStep (hP : EngineInvariant P) (h : P s) (hwf : s.cfg.wf = true) (he : engineStep s = .next t) : P t := by
  obtain ⟨-, hx⟩ | ⟨-, hx⟩ | ⟨i, m, hb, hd, hm, ⟨hl, hx⟩ | ⟨hl, hx⟩⟩ := engineStep_cases s <;>
    rw [hx] at he <;> cases he
  · exact h
  · exact hP.stepped hwf hb hd hm hl h
  · exact hP.finished hwf hb hd hm hl h

/-- What the host stores is in memory. -/
theorem of_line (hP : EngineInvariant P) (k : EeTask) (next : Option EeTask) (h : P s) :
    P { eeStore k s with task := next } := by
  have hstore : { eeStore k s with task := next } = { s with mem := (eeStore k s).mem, task := next } := by
    cases k <;> rfl
  rw [hstore]
  exact hP.others s.hostData s.waits next (eeStore k s).mem s.agenda s.env h

/-- Such a property is kept by every step. -/
theorem of_step (hP : EngineInvariant P) (h : P s) (hstep : step s = .next t) : P t := by
  obtain ⟨hwf, rest, heffect⟩ := step_effect hstep
  have h' : P { s with agenda := rest } := hP.others s.hostData s.waits s.task s.mem rest s.env h
  cases heffect with
  | idle => exact h'
  | ran i he => exact hP.of_exec h' he
  | wrote w => exact hP.of_writeCmd w h'
  | read d => exact hP.others d s.waits s.task s.mem rest s.env h'
  | ticked he => exact hP.of_engineStep h' hwf he
  | host n k => exact hP.others s.hostData n k s.mem rest s.env h'
  | line i k next he => exact hP.of_line k next (hP.of_exec h' he)
  | env low => exact hP.others s.hostData s.waits s.task s.mem rest (s.env.move low) h'
  | couserRead => exact hP.couserRead h'
  | couserWrite r bits v => exact hP.couserWrite r bits v hwf h'
  | rst b => exact hP.reset b h'

end EngineInvariant

/-! ### Micro-programs and `UPC` -/

/-- What is left of a micro-program from the operation that `UPC` names on. -/
theorem drop_microprogram {i : Instr} {k : Nat} {m : MicroOp} (hm : (microprogram i)[k]? = some m) :
    (microprogram i).drop k = m :: (microprogram i).drop (k + 1) := by
  obtain ⟨hk, rfl⟩ := List.getElem?_eq_some_iff.1 hm
  exact List.drop_eq_getElem_cons hk

/-- `UPC` counts on without overflow. -/
theorem toNat_upc_succ {i : Instr} {u : BitVec 5} (h : u.toNat + 1 < (microprogram i).length) :
    (u + 1#5).toNat = u.toNat + 1 := by
  have hlen := length_microprogram_le i
  rw [BitVec.toNat_add, BitVec.toNat_ofNat]
  omega

@[simp] theorem tick_busy (m : MicroOp) (s : State) : (tick m s).busy = s.busy := by rw [tick_frame]
@[simp] theorem tick_inited (m : MicroOp) (s : State) : (tick m s).inited = s.inited := by rw [tick_frame]
@[simp] theorem tick_viol (m : MicroOp) (s : State) : (tick m s).viol = s.viol := by rw [tick_frame]
@[simp] theorem tick_rst (m : MicroOp) (s : State) : (tick m s).rst = s.rst := by rw [tick_frame]

/-! ### The configuration (R8) -/

theorem engineInvariant_cfg (c : Config) : EngineInvariant (fun s => s.cfg = c) where
  others _ _ _ _ _ _ h := h
  flags _ _ _ h := h
  launched _ _ _ h := h
  completed i _ h := (ran_cfg i _).trans h
  stepped _ _ _ _ _ h := (tick_cfg _ _).trans h
  finished _ _ _ _ _ h := (tick_cfg _ _).trans h
  couserRead h := h
  couserWrite r _ _ _ h := by cases r <;> exact h
  reset b h := by cases b <;> exact h

/-- Settles O46: no move of any agent writes `cfg`. -/
theorem stepKeepsConfiguration : Obligations.StepKeepsConfiguration :=
  fun s _ hstep => (engineInvariant_cfg s.cfg).of_step rfl hstep

/-! ### The sequencer (R18) -/

theorem sequencerInv_of_idle {s : State} (hb : s.busy = false) (hu : s.upc = 0#5) : SequencerInv s := by
  rw [SequencerInv, if_neg (by rw [hb]; exact Bool.false_ne_true)]
  exact hu

theorem sequencerInv_of_busy {s : State} {i : Instr} (hb : s.busy = true) (hd : decode s.cmdr = .legal i)
    (hu : s.upc.toNat < (microprogram i).length) : SequencerInv s := by
  rw [SequencerInv, if_pos hb, hd]
  exact hu

theorem engineInvariant_sequencerInv : EngineInvariant SequencerInv where
  others _ _ _ _ _ _ h := h
  flags _ _ _ h := h
  launched i _ _ _ := sequencerInv_of_busy rfl (decode_encode i) (by cases i <;> exact Nat.succ_pos _)
  completed _ _ _ := sequencerInv_of_idle rfl rfl
  stepped _ hb hd _ hl _ :=
    sequencerInv_of_busy ((tick_busy _ _).trans hb) ((congrArg decode (tick_cmdr _ _)).trans hd)
      ((toNat_upc_succ hl).trans_lt hl)
  finished _ _ _ _ _ _ := sequencerInv_of_idle rfl rfl
  couserRead h := h
  couserWrite r _ _ _ h := by cases r <;> exact h
  reset b h := by
    cases b with
    | true => exact sequencerInv_of_idle rfl rfl
    | false => exact h

/-- Settles O40: a launch begins at 0, a step in the middle counts on, and every end of a command clears `UPC`. -/
theorem stepKeepsSequencerInv : Obligations.StepKeepsSequencerInv := fun _ _ => engineInvariant_sequencerInv.of_step

/-! ### Reset held (R151) -/

theorem resetHeld_of_released {s : State} (h : s.rst = false) : ResetHeld s := fun hr => by rw [h] at hr; cases hr

/-- A busy engine is not held in reset. -/
theorem rst_of_resetHeld {s : State} (h : ResetHeld s) (hb : s.busy = true) : s.rst = false := by
  by_contra hr
  obtain ⟨-, -, -, hidle, -⟩ := h (Bool.eq_true_of_not_eq_false hr)
  rw [hidle] at hb
  cases hb

theorem engineInvariant_resetHeld : EngineInvariant ResetHeld where
  others _ _ _ _ _ _ h := h
  flags _ _ hr _ := resetHeld_of_released hr
  launched _ hr _ _ := resetHeld_of_released hr
  completed i hs _ := resetHeld_of_released ((ran_rst i _).trans hs.released)
  stepped _ hb _ _ _ h := resetHeld_of_released ((tick_rst _ _).trans (rst_of_resetHeld h hb))
  finished _ hb _ _ _ h := resetHeld_of_released ((tick_rst _ _).trans (rst_of_resetHeld h hb))
  couserRead h := h
  couserWrite r _ _ _ h := by cases r <;> exact h
  reset b h := by
    cases b with
    | true => exact fun _ => ⟨rfl, rfl, rfl, rfl, rfl, rfl, rfl, rfl⟩
    | false => exact resetHeld_of_released rfl

/-- Settles O45: nothing but the assertion of reset writes these registers while it is held. -/
theorem stepKeepsResetHeld : Obligations.StepKeepsResetHeld := fun _ _ => engineInvariant_resetHeld.of_step

/-! ### Open drain (R25) -/

/-- `INIT` is the command whose micro-program ends with `OC`. -/
theorem OC_of_init_last {k : Nat} {m : MicroOp} (hm : (microprogram .init)[k]? = some m)
    (hl : k + 1 = (microprogram .init).length) : m = .OC := by
  obtain rfl : k = 1 := Nat.succ.inj hl
  exact (Option.some.inj hm).symm

/-- A launch keeps the contract if it was kept and the launch does not break it. -/
theorem allowed_of_viol_launch {i : Instr} {w : Word} {s : State} (h : (launch i w s).viol = false) :
    s.viol = false ∧ breaksContract i s = false :=
  Bool.or_eq_false_iff.1 h

/-- At the launch of any command but `INIT` the latch bits are 0, if the invariant held before. -/
theorem latchLow_of_launch {i : Instr} {w : Word} {s : State} (h : OpenDrainInv s) (hi : i ≠ .init)
    (hidle : s.busy = false) (hinited : (launch i w s).inited = true) (hviol : (launch i w s).viol = false) :
    LatchLow s := by
  have hinited' : s.inited = true := by
    cases i with
    | init => exact absurd rfl hi
    | start | stop | send v | recv a => exact hinited
  refine h hinited' (allowed_of_viol_launch hviol).1 fun hb => ?_
  rw [hidle] at hb
  cases hb.1

theorem engineInvariant_openDrainInv : EngineInvariant OpenDrainInv where
  others _ _ _ _ _ _ h := h
  flags _ _ _ h := h
  launched {s} i _ hidle h := fun hinited hviol hnot => by
    have hi : i ≠ .init := fun hi => hnot ⟨rfl, congrArg encode hi⟩
    exact latchLow_of_launch (s := s) h hi hidle hinited hviol
  completed {s} i hs h := fun hinited hviol _ => by
    by_cases hi : i = .init
    · subst hi
      exact latchLow_tick_OC (tick .IR (launch .init (encode .init) s))
    · have hlatch : LatchLow s :=
        latchLow_of_launch (w := encode i) h hi hs.idle ((ran_inited i s).symm.trans hinited)
          ((ran_viol i s).symm.trans hviol)
      show LatchLow (ran i s)
      rwa [LatchLow, ran_cfg, out_ran hi]
  stepped {s} _ m _ hb _ _ _ h := fun hinited hviol hnot => by
    have hlatch := h ((tick_inited m s).symm.trans hinited) ((tick_viol m s).symm.trans hviol) fun ⟨_, hinit⟩ =>
      hnot ⟨(tick_busy m s).trans hb, (tick_cmdr m s).trans hinit⟩
    exact latchLow_tick (m := m) hlatch
  finished {s i m} _ hb hd hm hl h := fun hinited hviol _ => by
    show LatchLow (tick m s)
    by_cases hi : i = .init
    · subst hi
      rw [OC_of_init_last hm hl]
      exact latchLow_tick_OC s
    · have hnot : ¬(s.busy = true ∧ s.cmdr = encode .init) := fun ⟨_, hinit⟩ => by
        rw [hinit, decode_encode] at hd
        exact hi (Decoded.legal.inj hd).symm
      exact latchLow_tick (h ((tick_inited m s).symm.trans hinited) ((tick_viol m s).symm.trans hviol) hnot)
  couserRead h := fun hinited hviol => h hinited (Bool.or_eq_false_iff.1 hviol).1
  couserWrite {s} r bits v hwf h := fun hinited hviol _ => by
    obtain ⟨hviol', hidle, -, -, hlatch⟩ := couserWrite_allowed hwf r bits v hviol
    have hinited' : s.inited = true := by cases r <;> exact hinited
    exact hlatch (h hinited' hviol' fun hb => by rw [hidle] at hb; cases hb.1)
  reset b h := by
    cases b with
    | true => exact fun hinited => by cases hinited
    | false => exact h

/-- Settles O42: `INIT` ends with `OC`, and from then on nothing writes the two latch bits within the contract. -/
theorem stepKeepsOpenDrain : Obligations.StepKeepsOpenDrain := by
  refine ⟨fun _ _ => engineInvariant_openDrainInv.of_step, fun s h hinited hviol hnot => ?_⟩
  obtain ⟨hsda, hscl⟩ := h hinited hviol hnot
  exact ⟨fun ⟨_, ho⟩ => absurd (hsda.symm.trans ho) Bool.false_ne_true,
    fun ⟨_, ho⟩ => absurd (hscl.symm.trans ho) Bool.false_ne_true⟩

/-! ### Rest states (R39) -/

theorem remaining_idle {s : State} (hb : s.busy = false) : remaining s = [] := by
  rw [remaining, if_neg (by rw [hb]; exact Bool.false_ne_true)]

theorem remaining_busy {s : State} {i : Instr} (hb : s.busy = true) (hd : decode s.cmdr = .legal i) :
    remaining s = (microprogram i).drop s.upc.toNat := by
  rw [remaining, if_pos hb, hd]

/-- The rest states of the command in `CMDR`, of which `ms` is still to run. -/
theorem restInv_iff {s : State} {i : Instr} {ms : List MicroOp} (hd : decode s.cmdr = .legal i) (hms : remaining s = ms) :
    RestInv s ↔ (s.inited = true → s.viol = false →
      clockAfter ms (sclDriven s) = false ∧ dataAfter (ackOperand s) ms (sdaDriven s) = holdsData i) := by
  rw [RestInv, hd, hms]

/-- A list with a `DR` in it forgets the data bit it began with. -/
theorem dataAfter_of_mem_DR {ms : List MicroOp} (h : MicroOp.DR ∈ ms) (ack b b' : Bool) :
    dataAfter ack ms b = dataAfter ack ms b' := by
  induction ms generalizing b b' with
  | nil => cases h
  | cons m ms ih =>
    cases m with
    | DL | DR | IR => rfl
    | DA | DS | CL | CR | SMA | SMD | OC => exact ih (by simpa using h) _ _

/-- Every `DS` is followed by a `DR` in its micro-program. -/
theorem DR_mem_drop_of_DS {i : Instr} {k : Nat} (hm : (microprogram i)[k]? = some .DS) :
    MicroOp.DR ∈ (microprogram i).drop (k + 1) := by
  have hsend : ∀ k < 28, microSend[k]? = some .DS → MicroOp.DR ∈ microSend.drop (k + 1) := by decide
  have hmem := List.mem_of_getElem? hm
  cases i with
  | init | start | stop | recv a =>
    exact absurd hmem (by simp [microprogram, microInit, microStart, microStop, microRecv, times])
  | send v => exact hsend k (List.getElem?_eq_some_iff.1 hm).1 hm

/-- A tick takes the data bit where the list it heads takes it. -/
theorem dataAfter_tick {m : MicroOp} {ms : List MicroOp} {s : State} (hwf : s.cfg.wf = true)
    (hDS : m = .DS → MicroOp.DR ∈ ms) :
    dataAfter (ackOperand s) ms (sdaDriven (tick m s)) = dataAfter (ackOperand s) (m :: ms) (sdaDriven s) := by
  rw [sdaDriven_tick m s hwf]
  cases m with
  | DS => exact dataAfter_of_mem_DR (hDS rfl) _ _ _
  | CL | CR | DL | DR | DA | SMA | SMD | IR | OC => rfl

/-- The whole micro-program of a command takes the data bit where it rests. -/
theorem dataAfter_microprogram (i : Instr) (b : Bool) :
    dataAfter ((encode i).getLsbD 0) (microprogram i) b = holdsData i := by
  cases i with
  | init | start | stop | send v => rfl
  | recv a => rw [getLsbD_zero_encode_recv]; cases a <;> rfl

/-- A command within the contract releases the clock. -/
theorem clockAfter_microprogram_allowed {i : Instr} {s : State} (h : breaksContract i s = false) :
    clockAfter (microprogram i) (sclDriven s) = false := by
  by_cases hi : i = .start
  · subst hi
    exact sclDriven_of_start_allowed h
  · exact clockAfter_microprogram hi _

/-- A launch within the contract heads for the command's rest state. -/
theorem restInv_launch (i : Instr) (s : State) : RestInv (launch i (encode i) s) := by
  have hms : remaining (launch i (encode i) s) = microprogram i :=
    remaining_busy (s := launch i (encode i) s) rfl (decode_encode i)
  refine (restInv_iff (s := launch i (encode i) s) (decode_encode i) hms).2 fun _ hviol => ?_
  obtain ⟨-, hallowed⟩ := allowed_of_viol_launch hviol
  exact ⟨clockAfter_microprogram_allowed (s := s) hallowed, dataAfter_microprogram i _⟩

/-- A command within the contract ends in its rest state. -/
theorem restInv_complete {i : Instr} {s : State} (hs : Ready s) : RestInv (complete i (ran i s)) := by
  have hd : decode (complete i (ran i s)).cmdr = .legal i := (congrArg decode (ran_cmdr i s)).trans (decode_encode i)
  refine (restInv_iff hd (remaining_idle rfl)).2 fun _ hviol => ?_
  obtain ⟨-, hallowed⟩ := Bool.or_eq_false_iff.1 ((ran_viol i s).symm.trans hviol)
  have hclock : sclDriven (ran i s) = false :=
    (sclDriven_ran i hs.wf).trans (clockAfter_microprogram_allowed hallowed)
  exact ⟨hclock, sdaDriven_ran i hs.wf⟩

/-- An engine step heads for the rest state that its command headed for. -/
theorem rest_tick {s : State} {i : Instr} {m : MicroOp} (hwf : s.cfg.wf = true) (hb : s.busy = true)
    (hd : decode s.cmdr = .legal i) (hm : (microprogram i)[s.upc.toNat]? = some m) (h : RestInv s)
    (hinited : s.inited = true) (hviol : s.viol = false) :
    clockAfter ((microprogram i).drop (s.upc.toNat + 1)) (sclDriven (tick m s)) = false ∧
      dataAfter (ackOperand s) ((microprogram i).drop (s.upc.toNat + 1)) (sdaDriven (tick m s)) = holdsData i := by
  have hms := (remaining_busy hb hd).trans (drop_microprogram hm)
  obtain ⟨hclock, hdata⟩ := (restInv_iff hd hms).1 h hinited hviol
  rw [sclDriven_tick m s hwf, ← clockAfter_cons, dataAfter_tick hwf fun hDS => DR_mem_drop_of_DS (hDS ▸ hm)]
  exact ⟨hclock, hdata⟩

theorem restInv_stepped {s : State} {i : Instr} {m : MicroOp} (hwf : s.cfg.wf = true) (hb : s.busy = true)
    (hd : decode s.cmdr = .legal i) (hm : (microprogram i)[s.upc.toNat]? = some m)
    (hl : s.upc.toNat + 1 < (microprogram i).length) (h : RestInv s) :
    RestInv { tick m s with upc := s.upc + 1#5 } := by
  have hcmdr := tick_cmdr m s
  have hd' : decode { tick m s with upc := s.upc + 1#5 }.cmdr = .legal i := (congrArg decode hcmdr).trans hd
  have hms : remaining { tick m s with upc := s.upc + 1#5 } = (microprogram i).drop (s.upc.toNat + 1) := by
    rw [← toNat_upc_succ hl]
    exact remaining_busy ((tick_busy m s).trans hb) hd'
  refine (restInv_iff hd' hms).2 fun hinited hviol => ?_
  have hack : ackOperand (tick m s) = ackOperand s := congrArg (·.getLsbD 0) hcmdr
  have hrest := rest_tick hwf hb hd hm h ((tick_inited m s).symm.trans hinited) ((tick_viol m s).symm.trans hviol)
  rw [← hack] at hrest
  exact hrest

theorem restInv_finished {s : State} {i : Instr} {m : MicroOp} (hwf : s.cfg.wf = true) (hb : s.busy = true)
    (hd : decode s.cmdr = .legal i) (hm : (microprogram i)[s.upc.toNat]? = some m)
    (hl : s.upc.toNat + 1 = (microprogram i).length) (h : RestInv s) : RestInv (complete i (tick m s)) := by
  have hd' : decode (complete i (tick m s)).cmdr = .legal i := (congrArg decode (tick_cmdr m s)).trans hd
  refine (restInv_iff hd' (remaining_idle rfl)).2 fun hinited hviol => ?_
  have hrest := rest_tick hwf hb hd hm h ((tick_inited m s).symm.trans hinited) ((tick_viol m s).symm.trans hviol)
  rw [hl, List.drop_length] at hrest
  exact hrest

/-- A co-user's write within the contract finds an idle engine and leaves its bits. -/
theorem restInv_couserWrite {s : State} (r : Latch) (bits v : Port) (hwf : s.cfg.wf = true) (h : RestInv s) :
    RestInv (couserWrite r bits v s) := by
  intro hinited hviol
  obtain ⟨hviol', hidle, hsda, hscl, -⟩ := couserWrite_allowed hwf r bits v hviol
  have hinited' : s.inited = true := by cases r <;> exact hinited
  have hrest := h hinited' hviol'
  rw [remaining_idle hidle] at hrest
  have hms : remaining (couserWrite r bits v s) = [] := remaining_idle (by cases r <;> exact hidle)
  rw [hms, hsda, hscl]
  cases r <;> exact hrest

theorem engineInvariant_restInv : EngineInvariant RestInv where
  others _ _ _ _ _ _ h := h
  flags _ _ _ h := h
  launched i _ _ _ := restInv_launch i _
  completed _ hs _ := restInv_complete hs
  stepped hwf hb hd hm hl h := restInv_stepped hwf hb hd hm hl h
  finished hwf hb hd hm hl h := restInv_finished hwf hb hd hm hl h
  couserRead h := fun hinited hviol => h hinited (Bool.or_eq_false_iff.1 hviol).1
  couserWrite r bits v hwf h := restInv_couserWrite r bits v hwf h
  reset b h := by
    cases b with
    | true => exact fun hinited => by cases hinited
    | false => exact h

/-- The data line is held after `START` and after `RECV` with acknowledge. -/
theorem holdsData_iff (i : Instr) : holdsData i = true ↔ i = .start ∨ i = .recv true := by
  cases i with
  | init | start | stop | send v | recv a => simp [holdsData]

/-- Settles O43: at a command boundary nothing of the micro-program is left, and the rest state is the state of the lines. -/
theorem stepKeepsRestState : Obligations.StepKeepsRestState := by
  refine ⟨fun _ _ => engineInvariant_restInv.of_step, fun s h hinited hviol hidle => ?_⟩
  have hrest := h hinited hviol
  rw [remaining_idle hidle] at hrest
  obtain ⟨hclock, hdata⟩ := hrest
  refine ⟨hclock, ?_⟩
  cases hd : decode s.cmdr with
  | illegal why =>
    rw [hd] at hdata
    exact hdata.elim
  | legal i =>
    rw [hd] at hdata
    refine ⟨i, rfl, ?_⟩
    rw [← holdsData_iff, ← hdata]
    rfl

/-! ### Right after reset (R41, R153, R156) -/

/-- Settles O47: idle, nothing launched, nothing stored, and no promise made before the first `INIT`. -/
theorem resetMeetsTheInvariants : Obligations.ResetMeetsTheInvariants := by
  intro c s
  have hrest : RestInv s := fun hinited => by cases hinited
  have hdrain : OpenDrainInv s := fun hinited => by cases hinited
  have hhost : HostInv s := ⟨rfl, fun _ ht => by cases ht⟩
  exact ⟨sequencerInv_of_idle rfl rfl, hdrain, hrest, hhost, resetHeld_of_released rfl, rfl, rfl, rfl⟩

/-- Settles O49: the values of `State.resetOf`, of which no flag sets a bit of `STATUS`. -/
theorem stateRightAfterReset : Obligations.StateRightAfterReset := by
  have hstatus : flagBit false 0 ||| flagBit false 1 ||| flagBit false 2 ||| flagBit false 3 = 0x0000#16 := rfl
  exact fun _ => ⟨rfl, rfl, rfl, rfl, rfl, rfl, rfl, rfl, rfl, rfl, rfl, rfl, rfl, hstatus⟩

end Sys2Proof.Machine
end

section
/-! SUPPORT. The step of the machine (R53, R91, R119), the host registers (R27, R29, R30), and the lines and the beginning of
the host's pseudo-instructions (R121, R125, R129). -/

namespace Sys2Proof.Machine

/-! ### The step -/

/-- With the configuration in bounds a step is the next move. -/
theorem step_eq_nextMove {s : State} (hwf : s.cfg.wf = true) : step s = nextMove s := if_pos hwf

/-- With moves written down the next move is the first of them. -/
theorem nextMove_cons {s : State} {m : Move} {rest : List Move} (h : s.agenda = m :: rest) :
    nextMove s = perform m { s with agenda := rest } := by
  rw [nextMove, h]

/-- With none written down it is the engine's or the host's. -/
theorem nextMove_nil {s : State} (h : s.agenda = []) : nextMove s = idleMove s := by
  rw [nextMove, h]

/-- Settles O32: both test the bounds first. -/
theorem badConfigurationIsRefused : Obligations.BadConfigurationIsRefused := by
  intro s hbad
  have hwf : s.cfg.wf = false := Bool.eq_false_of_not_eq_true fun hwf => hbad ((Config.wf_iff _).1 hwf)
  refine ⟨?_, fun i => ?_⟩
  · rw [step, hwf]
    rfl
  · rw [exec_eq_command, command, hwf]
    rfl

/-- Settles O51: the call of a legal word is `exec`, that of an illegal one the write. -/
theorem stepRunsTheDecodedCommand : Obligations.StepRunsTheDecodedCommand := by
  intro s w rest hwf hagenda
  have hstep : step s = hostCall w { s with agenda := rest } := (step_eq_nextMove hwf).trans (nextMove_cons hagenda)
  rw [hstep]
  refine ⟨fun i hd => ?_, fun why hd => hostCall_illegal _ hd⟩
  obtain ⟨-, -, hwellFormed⟩ := tableRow_statement i
  exact ⟨hwellFormed, by rw [hostCall, hd]⟩

/-- An idle host without a transaction has nothing to do. -/
theorem hostStep_none {s : State} (hidle : s.busy = false) (htask : s.task = none) : hostStep s = .next s := by
  rw [hostStep, if_neg (by rw [hidle]; exact Bool.false_ne_true), htask]

/-- Settles O52: `idleMove` asks for the engine first, then for the host. -/
theorem stepWithAnEmptyAgenda : Obligations.StepWithAnEmptyAgenda := by
  intro s hwf hagenda
  rw [step_eq_nextMove hwf, nextMove_nil hagenda, idleMove]
  refine ⟨fun hbusy => if_pos hbusy, fun hidle htask => ?_⟩
  rw [if_neg (by rw [hidle]; exact Bool.false_ne_true), hostStep_none hidle htask]

/-! ### The host registers (R27) -/

section
variable (c : Config)

theorem hostReg_cmd : hostReg c c.hostBase = some .cmd := if_pos rfl

theorem hostReg_status : hostReg c (c.hostBase + 1) = some .status := by
  rw [hostReg, if_neg (by omega), if_pos rfl]

theorem hostReg_rxdata : hostReg c (c.hostBase + 2) = some .rxdata := by
  rw [hostReg, if_neg (by omega), if_neg (by omega), if_pos rfl]

/-- No other word address is the engine's. -/
theorem hostReg_none {addr : Nat} (h : addr < c.hostBase ∨ c.hostBase + 3 ≤ addr) : hostReg c addr = none := by
  rw [hostReg, if_neg (by omega), if_neg (by omega), if_neg (by omega)]

end

/-- The four flags in bits 0 to 3, nothing above (R29). -/
theorem statusWord_bits (s : State) :
    (statusWord s).getLsbD 0 = s.busy ∧ (statusWord s).getLsbD 1 = s.ack ∧ (statusWord s).getLsbD 2 = s.errIll ∧
      (statusWord s).getLsbD 3 = s.errOvr ∧ (statusWord s).extractLsb' 4 12 = 0#12 := by
  rw [statusWord]
  cases s.busy <;> cases s.ack <;> cases s.errIll <;> cases s.errOvr <;> decide

/-- The byte, zero-extended (R30). -/
theorem rxdataWord_bits (s : State) :
    (rxdataWord s).extractLsb' 0 8 = s.rxdata ∧ (rxdataWord s).extractLsb' 8 8 = 0#8 := by
  constructor
  · ext k hk
    simp [rxdataWord, hk, show k < 16 by omega]
  · ext k hk
    simp [rxdataWord]

/-- Settles O50: which register a word address reaches decides the access. -/
theorem hostRegisters : Obligations.HostRegisters := by
  intro s w base
  refine ⟨hostRead_of_hostReg (hostReg_cmd s.cfg), ⟨_, hostRead_of_hostReg (hostReg_status s.cfg), statusWord_bits s⟩,
    ⟨_, hostRead_of_hostReg (hostReg_rxdata s.cfg), rxdataWord_bits s⟩, hostWrite_hostBase w s, ?_, ?_,
    fun addr h => ⟨?_, ?_⟩⟩
  · rw [hostWrite, hostReg_status]
  · rw [hostWrite, hostReg_rxdata]
  · rw [hostRead, hostReg_none s.cfg h]
  · rw [hostWrite, hostReg_none s.cfg h]

/-! ### The lines of `EE_WRITE` and `EE_READ`, and their beginning -/

/-- Settles O54: the lines as R125 and R129 write them. -/
theorem addressingPhaseCommands : Obligations.AddressingPhaseCommands := by
  intro s a
  refine ⟨rfl, rfl, rfl, rfl, fun _ => rfl, rfl, rfl, rfl, rfl, rfl, rfl, rfl, rfl, rfl, rfl, rfl, rfl, fun _ => rfl, rfl,
    rfl, rfl, rfl, fun h => ?_, fun h => ?_, rfl, rfl, rfl, rfl, rfl, rfl⟩
  · rw [eeNext, if_pos rfl, if_neg (by omega)]
  · rw [eeNext, if_pos rfl, if_pos h]

section
variable {s : State} (t : EeTask) {a : EeArgs} (hwf : s.cfg.hostWf = true)
include hwf

/-- A call within its buffer begins when no other is in progress. -/
theorem eeBegin_accepted (hfits : a.offset + a.length ≤ a.buf.size) (hnone : s.task = none) :
    eeBegin t a s = .next { s with task := some t } := by
  rw [eeBegin, if_pos hwf, if_pos hfits, hnone]

/-- A call beyond its buffer is refused (U21). -/
theorem eeBegin_beyond (hbeyond : a.buf.size < a.offset + a.length) : eeBegin t a s = .refused .bufferBounds := by
  rw [eeBegin, if_pos hwf, if_neg (by omega)]

/-- A call while another is in progress is refused (U7). -/
theorem eeBegin_interleaved (hfits : a.offset + a.length ≤ a.buf.size) {k : EeTask} (hsome : s.task = some k) :
    eeBegin t a s = .refused .interleavedTransaction := by
  rw [eeBegin, if_pos hwf, if_pos hfits, hsome]

end

/-- Settles O60: both calls begin by `eeBegin`, which sees neither `commit` nor `PAGE_SIZE`. -/
theorem beginningATransaction : Obligations.BeginningATransaction := by
  refine fun s a c hwf => ⟨fun hfits hnone => ?_, fun hbeyond => ?_, fun hfits ⟨k, hsome⟩ => ?_⟩
  · exact ⟨eeBegin_accepted _ hwf hfits hnone, eeBegin_accepted _ hwf hfits hnone⟩
  · exact ⟨eeBegin_beyond _ hwf hbeyond, eeBegin_beyond _ hwf hbeyond⟩
  · exact ⟨eeBegin_interleaved _ hwf hfits hsome, eeBegin_interleaved _ hwf hfits hsome⟩

end Sys2Proof.Machine
end

section
/-! SUPPORT. The host's side: memory in canonical form and a transaction within its buffer (R130, U21), and the lines of
`EE_WRITE` and `EE_READ` step by step (R126 to R129). -/

namespace Sys2Proof.Machine

/-! ### What leaves the host's side alone -/

/-- The host's side depends on memory and on the transaction. -/
theorem hostInv_of_eq {s t : State} (h : HostInv s) (hmem : t.mem = s.mem) (htask : t.task = s.task) : HostInv t := by
  rwa [HostInv, MemInv, hmem, htask]

theorem hostInv_exec {i : Instr} {s t : State} (h : HostInv s) (he : exec i s = .next t) : HostInv t := by
  obtain ⟨-, hmem, -, -, -, -, -, htask, -⟩ := commandFrame i s t he
  exact hostInv_of_eq h hmem htask

theorem hostInv_engineStep {s t : State} (h : HostInv s) (he : engineStep s = .next t) : HostInv t := by
  have htick (m : MicroOp) : HostInv (tick m s) := by
    rw [tick_frame]
    exact h
  obtain ⟨-, hx⟩ | ⟨-, hx⟩ | ⟨i, m, -, -, -, ⟨-, hx⟩ | ⟨-, hx⟩⟩ := engineStep_cases s <;>
    rw [hx] at he <;> cases he
  · exact h
  · exact htick m
  · exact htick m

theorem hostInv_writeCmd (w : Word) {s : State} (h : HostInv s) : HostInv (writeCmd w s) := by
  rw [writeCmd]
  split
  · exact h
  · split
    · exact h
    · split <;> exact h

/-! ### The host's own lines -/

/-- From a line within bounds the next line is within bounds: the data lines begin at 0 if there is a byte, and count up to the
last. -/
theorem inBounds_eeNext {t t' : EeTask} {ack : Bool} (h : t.inBounds) (hnext : eeNext ack t = some t') : t'.inBounds := by
  cases t with
  | writeStart a | readStart a | readAddrStop a | readRestart a => cases hnext; exact h
  | writeSelect a | writeAddrHi a | readSelect a | readAddrHi a | readAddrLo a =>
    cases ack with
    | true => cases hnext; exact h
    | false => cases hnext
  | writeAddrLo a =>
    rw [eeNext] at hnext
    split_ifs at hnext with hack hlen <;> cases hnext
    · trivial
    · exact ⟨h, Nat.pos_of_ne_zero hlen⟩
  | writeData a k =>
    rw [eeNext] at hnext
    split_ifs at hnext with hmore <;> cases hnext
    · exact ⟨h.1, of_decide_eq_true (Bool.and_eq_true_iff.1 hmore).2⟩
    · trivial
  | writeStop | pollWait | pollStart => cases hnext; trivial
  | pollSelect => cases ack <;> cases hnext <;> trivial
  | writeFinalStop | readFinalStop => cases hnext
  | readReselect a =>
    rw [eeNext] at hnext
    split_ifs at hnext with hmore <;> cases hnext
    · exact ⟨h, of_decide_eq_true (Bool.and_eq_true_iff.1 hmore).2⟩
    · trivial
  | readData a k =>
    rw [eeNext] at hnext
    split_ifs at hnext with hmore <;> cases hnext
    · exact ⟨h.1, hmore⟩
    · trivial

/-- The one line that stores keeps the canonical form. -/
theorem memInv_eeStore (t : EeTask) {s : State} (h : MemInv s) : MemInv (eeStore t s) := by
  cases t with
  | readData a k => exact Memory.wf_write h
  | _ => exact h

theorem hostInv_eeStep {t : EeTask} {s u : State} (h : HostInv s) (ht : t.inBounds) (he : eeStep t s = .next u) :
    HostInv u := by
  rw [eeStep] at he
  split at he
  · cases he
    exact ⟨h.1, fun _ => inBounds_eeNext ht⟩
  · split at he <;> cases he
    rename_i hexec
    exact ⟨memInv_eeStore t (hostInv_exec h hexec).1, fun _ => inBounds_eeNext ht⟩

theorem hostInv_hostStep {s t : State} (h : HostInv s) (he : hostStep s = .next t) : HostInv t := by
  rw [hostStep] at he
  split at he
  · cases he
    exact h
  · split at he
    · rename_i k hk
      exact hostInv_eeStep h (h.2 k hk) he
    · cases he
      exact h

/-- A transaction that begins has passed the test of its buffer. -/
theorem hostInv_eeBegin {t : EeTask} {a : EeArgs} {s u : State} (ht : a.fits → t.inBounds) (h : HostInv s)
    (he : eeBegin t a s = .next u) : HostInv u := by
  rw [eeBegin] at he
  split at he
  · split at he
    · rename_i hfits
      split at he <;> cases he
      exact ⟨h.1, fun k hk => Option.some.inj hk ▸ ht hfits⟩
    · cases he
  · cases he

theorem hostInv_perform {m : Move} {s t : State} (h : HostInv s) (he : perform m s = .next t) : HostInv t := by
  cases m with
  | call w =>
    rw [perform, hostCall] at he
    split at he
    · exact hostInv_exec h he
    · cases he
      exact hostInv_writeCmd w h
  | hostWrite addr w =>
    rw [perform, hostWrite] at he
    split at he <;> cases he
    · exact hostInv_writeCmd w h
    · exact h
    · exact h
  | hostRead addr =>
    obtain ⟨r, -, rfl⟩ := hostRead_eq_next he
    exact h
  | engine => exact hostInv_engineStep h he
  | host => exact hostInv_hostStep h he
  | env low => cases he; exact h
  | couserRead ref =>
    rw [perform, couserReadAt] at he
    split at he <;> cases he
    exact h
  | couserWrite ref bits v =>
    rw [perform, couserWriteAt] at he
    split at he <;> cases he
    · exact h
    · exact h
  | rst b => cases b <;> cases he <;> exact h
  | eeWrite a c => exact hostInv_eeBegin id h he
  | eeRead a => exact hostInv_eeBegin id h he

/-- Settles O44: memory is written by `Memory.write` alone, and the transaction moves from line to line within its buffer. -/
theorem stepKeepsHostMemory : Obligations.StepKeepsHostMemory := by
  refine ⟨fun s t h hstep => ?_, fun s a k ⟨_, hbounds⟩ htask => ?_⟩
  · rw [step] at hstep
    split at hstep
    · rw [nextMove] at hstep
      split at hstep
      · rename_i m rest _
        exact hostInv_perform (s := { s with agenda := rest }) h hstep
      · rw [idleMove] at hstep
        split at hstep
        · exact hostInv_engineStep h hstep
        · exact hostInv_hostStep h hstep
    · cases hstep
  · have hdata : a.fits ∧ k < a.length := by
      obtain htask | htask := htask <;> exact hbounds _ htask
    obtain ⟨hfits, hk⟩ := hdata
    rw [EeArgs.fits] at hfits
    rw [EeArgs.at]
    omega

/-! ### One line of a transaction (R119) -/

/-- `CMDR` holds the word of the command that has run. -/
theorem cmdr_of_exec {i : Instr} {s t : State} (hs : Ready s) (he : exec i s = .next t) : t.cmdr = encode i := by
  rw [exec_result i hs] at he
  cases he
  rfl

/-- What the step of a line that calls `i` leaves for the next one. -/
structure LineDone (t : EeTask) (i : Instr) (s u : State) : Prop where
  ready : Ready u
  agenda : u.agenda = []
  cmdr : u.cmdr = encode i
  cfg : u.cfg = s.cfg
  task : u.task = eeNext u.ack t

section
variable {s : State} {t : EeTask} {i : Instr} (hs : Ready s) (hagenda : s.agenda = []) (htask : s.task = some t)
include hs hagenda htask

/-- A ready host with an empty agenda performs its line. -/
theorem step_eq_eeStep : step s = eeStep t s := by
  rw [step_eq_nextMove hs.wf, nextMove_nil hagenda, idleMove, hs.idle, if_neg Bool.false_ne_true, hostStep, hs.idle,
    if_neg Bool.false_ne_true, htask]

variable (hi : eeCommand s t = some i)
include hi

/-- The line runs its command, stores, and moves on. -/
theorem step_line {r : State} (he : exec i s = .next r) :
    step s = .next { eeStore t r with task := eeNext r.ack t } ∧
      LineDone t i s { eeStore t r with task := eeNext r.ack t } := by
  obtain ⟨-, -, hcfg, -, -, -, -, -, hkept, -⟩ := commandFrame i s r he
  have hstore : eeStore t r = { r with mem := (eeStore t r).mem } := by cases t <;> rfl
  refine ⟨?_, ?_⟩
  · simp only [step_eq_eeStep hs hagenda htask, eeStep, hi, he]
  · rw [hstore]
    have hr := ready_of_exec hs he
    have hcmdr := cmdr_of_exec hs he
    exact ⟨⟨hr.wf, hr.released, hr.idle⟩, hkept.trans hagenda, hcmdr, hcfg, rfl⟩

/-- Every line with a command answers. -/
theorem exists_step_line : ∃ u, step s = .next u ∧ LineDone t i s u :=
  ⟨_, step_line hs hagenda htask hi (exec_ready i hs)⟩

/-- Every line but a data line of `EE_READ` leaves memory. -/
theorem exists_step_line_mem (hstore : ∀ r, eeStore t r = r) :
    ∃ u, step s = .next u ∧ LineDone t i s u ∧ u.mem = s.mem := by
  obtain ⟨hstep, hdone⟩ := step_line hs hagenda htask hi (exec_ready i hs)
  obtain ⟨-, hmem, -⟩ := commandFrame i s _ (exec_ready i hs)
  refine ⟨_, hstep, hdone, ?_⟩
  rw [hstore]
  exact hmem

end

/-! ### The addressing phase (R126) -/

/-- The six lines that an acknowledge gates: each sends a byte, ends the operation without one, and stores nothing. -/
theorem gatedLine {s : State} {a : EeArgs} {t : EeTask}
    (h : t ∈ [EeTask.writeSelect a, .writeAddrHi a, .writeAddrLo a, .readSelect a, .readAddrHi a, .readAddrLo a]) :
    (∃ v, eeCommand s t = some (.send v)) ∧ eeNext false t = none ∧ ∀ r, eeStore t r = r := by
  simp only [List.mem_cons, List.not_mem_nil, or_false] at h
  obtain rfl | rfl | rfl | rfl | rfl | rfl := h <;> exact ⟨⟨_, rfl⟩, rfl, fun _ => rfl⟩

/-- Settles O55: the sample is the `SEND`'s `ACK`, without which no line follows; a `SEND` ends with both lines released. -/
theorem addressingAbortReturnsAtOnce : Obligations.AddressingAbortReturnsAtOnce := by
  intro s a t hs hagenda htask hframe hmem hsample
  obtain ⟨⟨v, hi⟩, hnext, hstore⟩ := gatedLine (s := s) hmem
  obtain ⟨hstep, hdone⟩ := step_line hs hagenda htask hi (sendResult v s hs)
  rw [hstore] at hstep hdone
  have hnone : eeNext (Env.after 28 s.env).low.sda t = none := by rw [hsample, hnext]
  obtain ⟨-, hidle⟩ := stepWithAnEmptyAgenda _ hdone.ready.wf hdone.agenda
  exact ⟨_, hstep, hnone, hframe, hsample, getLsbD_clr_bits_right _ _ _, getLsbD_clr_bits_left _ _ _, rfl,
    hidle hdone.ready.idle hnone⟩

/-! ### The data phase and the busy-poll of `EE_WRITE` (R127, R128) -/

/-- Settles O56: the line's `SEND`, and after the last or an unacknowledged byte the line of the `STOP`. -/
theorem dataPhaseEndsInStop : Obligations.DataPhaseEndsInStop := by
  intro s a k hs hagenda htask
  obtain ⟨u, hu, hdone⟩ := exists_step_line hs hagenda htask rfl
  have hnext := hdone.task
  rw [eeNext] at hnext
  refine ⟨u, hu, hdone.cmdr, fun hack hmore => ?_, fun hend => ?_⟩
  · rw [hnext, hack, decide_eq_true hmore]
    rfl
  · have hstop : u.task = some .writeStop := by
      rw [hnext, if_neg]
      obtain hack | hlast := hend
      · simp [hack]
      · simp [hlast]
    obtain ⟨v, hv, hdone'⟩ := exists_step_line hdone.ready hdone.agenda hstop rfl
    exact ⟨hstop, v, hv, hdone'.cmdr, hdone'.task⟩

/-- The wait is counted, and the poll's `START` is next. -/
theorem step_pollWait {s : State} (hs : Ready s) (hagenda : s.agenda = []) (htask : s.task = some .pollWait) :
    step s = .next { s with waits := s.waits + 1, task := some .pollStart } := by
  rw [step_eq_eeStep hs hagenda htask]
  rfl

/-- Settles O57: the three lines of the poll one after the other, then the wait again or the final `STOP`. -/
theorem busyPollRepeatsUntilAcknowledged : Obligations.BusyPollRepeatsUntilAcknowledged := by
  intro s hs hagenda htask
  have hu := step_pollWait hs hagenda htask
  obtain ⟨u, hwaited⟩ : ∃ u, u = { s with waits := s.waits + 1, task := some EeTask.pollStart } := ⟨_, rfl⟩
  rw [← hwaited] at hu
  have hready : Ready u := by rw [hwaited]; exact ⟨hs.wf, hs.released, hs.idle⟩
  have hagendau : u.agenda = [] := by rw [hwaited]; exact hagenda
  have htasku : u.task = some .pollStart := by rw [hwaited]
  obtain ⟨v, hv, hstart⟩ := exists_step_line hready hagendau htasku rfl
  obtain ⟨w, hw, hselect⟩ := exists_step_line hstart.ready hstart.agenda hstart.task rfl
  have hcfg : v.cfg = s.cfg := by rw [hstart.cfg, hwaited]
  have hnext := hselect.task
  rw [eeNext] at hnext
  refine ⟨u, v, w, hu, hwaited, hv, hstart.cmdr, hw, hcfg ▸ hselect.cmdr, fun hack => ?_, fun hack => ?_⟩
  · rw [hnext, hack]
    rfl
  · have hfinal : w.task = some .writeFinalStop := by rw [hnext, hack]; rfl
    obtain ⟨x, hx, hstop⟩ := exists_step_line hselect.ready hselect.agenda hfinal rfl
    exact ⟨x, hx, hstop.cmdr, hstop.task⟩

/-! ### The burst of `EE_READ` (R129) -/

/-- What a `RECV` called by a ready host answers, seen by the host: memory untouched, the samples in `RXDATA`, the data line
held exactly with acknowledge. -/
theorem exec_recv {s : State} (hs : Ready s) (ack : Bool) :
    ∃ r, exec (.recv ack) s = .next r ∧ r.mem = s.mem ∧ r.rxdata = byteOfSamples (recvSamples s.env) ∧
      sdaDriven r = ack := by
  obtain ⟨r, hr, -, hsda, -⟩ := exec_dirBits (.recv ack) hs
  have hrecv := recvResult ack s hs
  rw [hr] at hrecv
  cases hrecv
  exact ⟨_, hr, rfl, rfl, hsda⟩

/-- Settles O58: the one store of the line is the byte of the samples at the line's own address. -/
theorem burstReadStoresOneByte : Obligations.BurstReadStoresOneByte := by
  intro s a k hs hmemInv hagenda htask
  obtain ⟨r, hr, hmem, hrx, hsda⟩ := exec_recv hs (decide (k + 1 < a.length))
  obtain ⟨hstep, hdone⟩ := step_line hs hagenda htask rfl hr
  have hstored : (eeStore (.readData a k) r).mem = Memory.write s.mem (a.at k) (byteOfSamples (recvSamples s.env)) := by
    rw [eeStore, hmem, hrx]
  refine ⟨_, hstep, hdone.cmdr, ?_, hrx, fun x hx => ?_, fun hmore => ⟨?_, ?_⟩, fun hlast => ⟨?_, ?_⟩⟩
  · show Memory.read (eeStore (.readData a k) r).mem (a.at k) = _
    rw [hstored, Memory.read_write_same hmemInv]
  · show Memory.read (eeStore (.readData a k) r).mem x = _
    rw [hstored, Memory.read_write_other hx]
  · exact if_pos hmore
  · exact hsda.trans (decide_eq_true hmore)
  · exact if_neg (by omega)
  · exact hsda.trans (decide_eq_false (by omega))

/-- Settles O59: the gate of the burst, and on its other side the final `STOP`. -/
theorem readSelectDecidesTheBurst : Obligations.ReadSelectDecidesTheBurst := by
  intro s a hs hagenda htask
  obtain ⟨u, hu, hdone, hmem⟩ := exists_step_line_mem hs hagenda htask rfl fun _ => rfl
  have hnext := hdone.task
  rw [eeNext] at hnext
  refine ⟨u, hu, hdone.cmdr, hmem, fun hack hsome => ?_, fun hend => ?_⟩
  · rw [hnext, hack, decide_eq_true hsome]
    rfl
  · have hstop : u.task = some .readFinalStop := by
      rw [hnext, if_neg]
      obtain hack | hempty := hend
      · simp [hack]
      · simp [hempty]
    obtain ⟨v, hv, hdone', hmem'⟩ := exists_step_line_mem hdone.ready hdone.agenda hstop rfl fun _ => rfl
    exact ⟨v, hv, hdone'.cmdr, hdone'.task, hmem'.trans hmem⟩

end Sys2Proof.Machine
end
